-- ==== Sys2Proof/Word.lean ====
section
/-! DEFINITION. The word types of the CHIP-8 core (R7, R8): every quantity is an unsigned bit vector. -/

namespace Sys2Proof

/-- A memory byte, a `V` register, a timer, an 8-bit immediate (R14, R24, R27, R64). -/
abbrev Byte := BitVec 8

/-- An opcode word, `I`, `PC` or a stack slot (R16, R17, R22, R61). -/
abbrev Word := BitVec 16

/-- A nibble: a register number `x` or `y`, a sprite height `n`, a key number (R62, R64, R179). -/
abbrev Nibble := BitVec 4

/-- The 12-bit address immediate `nnn` (R63). -/
abbrev Imm12 := BitVec 12

/-- The register number of VF, the sixteenth register (R15, conflict C5). -/
abbrev flagReg : Nibble := 0xF#4

/-- `zext_16` of a 12-bit address (R7, R63). -/
abbrev zext12 (a : Imm12) : Word := a.setWidth 16

/-- `zext_16` of a byte (R7). -/
abbrev zext8 (b : Byte) : Word := b.setWidth 16

end Sys2Proof
end

