-- ==== Sys2Proof/Config.lean ====
section
/-! DEFINITION. What one machine fixes (the parameters of R6 and of the list in 92_eei_decisions.md), the fixed sizes
of R6, and the free values: the answers of the Keypad and RandomSource ports (R179 to R181). -/

namespace Sys2Proof.Config

/-- The parameters the spec leaves open (R6; 92_eei_decisions.md, "Parameters left open"), the configuration a core is
constructed with. A state holds the one of its core, no step changes it, and a claim over states holds for every one;
the defaults are `Machine.params`. -/
structure Params where
  /-- STACK_CAPACITY, how many return addresses the call stack holds (D1). -/
  stackCapacity : Nat
  /-- FONT_BASE, the address of the glyph of digit 0 (D3). -/
  fontBase : Imm12
  /-- ZERO_GROUP_LOOSE: group 0 is matched on `n1` and `n4` alone (D12). -/
  zeroGroupLoose : Bool
  /-- SHIFT_USES_VY: `8xy6` and `8xyE` shift `V[y]` into `V[x]` (D5). -/
  shiftUsesVy : Bool
  /-- DRAW_WRAPS: a sprite pixel past the edge wraps instead of being clipped (D8). -/
  drawWraps : Bool
  deriving DecidableEq, Repr

/-- The last address of `MEM` (R6, R41). -/
abbrev lastAddress : Nat := 4095

/-- PROG_BASE, the reset vector and the load address of a program (R6, R51). -/
abbrev progBase : Nat := 0x200

/-- The longest program image that fits, 0x200 to 0xFFF inclusive (R53, R196, conflict C2). -/
abbrev progCapacity : Nat := 3584

/-- GLYPH_BYTES (R6). -/
abbrev glyphBytes : Nat := 5

/-- The size of the glyph table, GLYPH_COUNT glyphs of GLYPH_BYTES bytes (R6, R197). -/
abbrev fontBytes : Nat := 80

/-- FREE VALUE (log 1; U8, R179): what the Keypad port answers to `KeyPressed(k)` when it is the `q`-th query the
core makes. Nothing constrains it. -/
opaque keyPressed : (q : Nat) → (k : Nibble) → Bool

/-- FREE VALUE (log 1; U8, R180): what the Keypad port answers to `KeyAny()` as the `q`-th query: no key, or one key
of the port's choice. -/
opaque keyAny : (q : Nat) → Option Nibble

/-- FREE VALUE (log 1; U7, R181): the byte the RandomSource port answers as the `q`-th query. -/
opaque randomByte : (q : Nat) → Byte

end Sys2Proof.Config
end

