-- ==== Sys2Proof/Machine/Params.lean ====
section
/-! DEFINITION. The default value of each parameter (R6, 92_eei_decisions.md). -/

namespace Sys2Proof.Machine

/-- The defaults of R6 and of the list in 92_eei_decisions.md: the configuration of `State.reset` (log 2). -/
def params : Config.Params :=
  { stackCapacity := 16
    fontBase := 0x050#12
    zeroGroupLoose := false
    shiftUsesVy := false
    drawWraps := false }

end Sys2Proof.Machine
end

