-- ==== Sys2Proof/Syntax.lean ====
section
/-! DEFINITION. The instructions: one constructor per row of spec/opcode_table.json (R68, R69). A constructor's
arguments are the row's fields (R64). -/

namespace Sys2Proof

/-- The 34 defined instructions and the unknown opcode (R68, R69). -/
inductive Instr where
  /-- `00E0` CLS (R121). -/
  | cls
  /-- `00EE` RET (R83). -/
  | ret
  /-- `1nnn` JP nnn (R81). -/
  | jp (nnn : Imm12)
  /-- `2nnn` CALL nnn (R82). -/
  | call (nnn : Imm12)
  /-- `3xnn` SE Vx, nn (R90). -/
  | seImm (x : Nibble) (nn : Byte)
  /-- `4xnn` SNE Vx, nn (R91). -/
  | sneImm (x : Nibble) (nn : Byte)
  /-- `5xy0` SE Vx, Vy (R92). -/
  | seReg (x y : Nibble)
  /-- `6xnn` LD Vx, nn (R100). -/
  | ldImm (x : Nibble) (nn : Byte)
  /-- `7xnn` ADD Vx, nn (R101). -/
  | addImm (x : Nibble) (nn : Byte)
  /-- `8xy0` LD Vx, Vy (R102). -/
  | ldReg (x y : Nibble)
  /-- `8xy1` OR Vx, Vy (R103). -/
  | orReg (x y : Nibble)
  /-- `8xy2` AND Vx, Vy (R104). -/
  | andReg (x y : Nibble)
  /-- `8xy3` XOR Vx, Vy (R105). -/
  | xorReg (x y : Nibble)
  /-- `8xy4` ADD Vx, Vy (R106). -/
  | addReg (x y : Nibble)
  /-- `8xy5` SUB Vx, Vy (R107). -/
  | subReg (x y : Nibble)
  /-- `8xy6` SHR Vx (R108); the `y` field is kept: it is read when SHIFT_USES_VY holds (D5). -/
  | shr (x y : Nibble)
  /-- `8xy7` SUBN Vx, Vy (R109). -/
  | subnReg (x y : Nibble)
  /-- `8xyE` SHL Vx (R110); the `y` field as in `shr`. -/
  | shl (x y : Nibble)
  /-- `9xy0` SNE Vx, Vy (R93). -/
  | sneReg (x y : Nibble)
  /-- `Annn` LD I, nnn (R130). -/
  | ldI (nnn : Imm12)
  /-- `Bnnn` JP V0, nnn (R84). -/
  | jpV0 (nnn : Imm12)
  /-- `Cxnn` RND Vx, nn (R111). -/
  | rnd (x : Nibble) (nn : Byte)
  /-- `Dxyn` DRW Vx, Vy, n (R122). -/
  | drw (x y n : Nibble)
  /-- `Ex9E` SKP Vx (R94). -/
  | skp (x : Nibble)
  /-- `ExA1` SKNP Vx (R95). -/
  | sknp (x : Nibble)
  /-- `Fx07` LD Vx, DT (R140). -/
  | ldVxDT (x : Nibble)
  /-- `Fx0A` LD Vx, K (R143). -/
  | ldVxK (x : Nibble)
  /-- `Fx15` LD DT, Vx (R141). -/
  | ldDTVx (x : Nibble)
  /-- `Fx18` LD ST, Vx (R142). -/
  | ldSTVx (x : Nibble)
  /-- `Fx1E` ADD I, Vx (R131). -/
  | addIVx (x : Nibble)
  /-- `Fx29` LD F, Vx (R132). -/
  | ldF (x : Nibble)
  /-- `Fx33` LD B, Vx (R133). -/
  | ldB (x : Nibble)
  /-- `Fx55` LD [I], Vx (R134). -/
  | storeRegs (x : Nibble)
  /-- `Fx65` LD Vx, [I] (R135). -/
  | loadRegs (x : Nibble)
  /-- Any word no row of R68 matches (R69, R150); the word itself is kept. -/
  | unknown (w : Word)
  deriving DecidableEq, Repr

end Sys2Proof
end

