-- ==== Sys2Proof/Decode.lean ====
section
/-! DEFINITION. Decoding a word by its nibbles (R62 to R72), decoding bytes, and the encoder of R65. -/

namespace Sys2Proof

/-- `n1 = op[15:12]` (R62). -/
def nibble1 (w : Word) : Nibble := w.extractLsb' 12 4

/-- `n2 = op[11:8]`, the register number `x` (R62, R64). -/
def nibble2 (w : Word) : Nibble := w.extractLsb' 8 4

/-- `n3 = op[7:4]`, the register number `y` (R62, R64). -/
def nibble3 (w : Word) : Nibble := w.extractLsb' 4 4

/-- `n4 = op[3:0]` (R62, R64). -/
def nibble4 (w : Word) : Nibble := w.extractLsb' 0 4

/-- `nn = op[7:0]` (R64). -/
def imm8 (w : Word) : Byte := w.extractLsb' 0 8

/-- `nnn = op[11:0]` (R63). -/
def addr12 (w : Word) : Imm12 := w.extractLsb' 0 12

/-- Group 0 is matched on the whole word; with ZERO_GROUP_LOOSE on `n4` alone (R70, D12). -/
def decodeGroup0 (p : Config.Params) (w : Word) : Instr :=
  if w = 0x00E0#16 ∨ (p.zeroGroupLoose = true ∧ nibble4 w = 0x0#4) then .cls
  else if w = 0x00EE#16 ∨ (p.zeroGroupLoose = true ∧ nibble4 w = 0xE#4) then .ret
  else .unknown w

/-- Group 8 switches on `n4` (R67). -/
def decodeGroup8 (w : Word) : Instr :=
  let x := nibble2 w
  let y := nibble3 w
  if nibble4 w = 0x0#4 then .ldReg x y
  else if nibble4 w = 0x1#4 then .orReg x y
  else if nibble4 w = 0x2#4 then .andReg x y
  else if nibble4 w = 0x3#4 then .xorReg x y
  else if nibble4 w = 0x4#4 then .addReg x y
  else if nibble4 w = 0x5#4 then .subReg x y
  else if nibble4 w = 0x6#4 then .shr x y
  else if nibble4 w = 0x7#4 then .subnReg x y
  else if nibble4 w = 0xE#4 then .shl x y
  else .unknown w

/-- Group E switches on the low byte (R67). -/
def decodeGroupE (w : Word) : Instr :=
  if imm8 w = 0x9E#8 then .skp (nibble2 w)
  else if imm8 w = 0xA1#8 then .sknp (nibble2 w)
  else .unknown w

/-- Group F switches on the low byte (R67). -/
def decodeGroupF (w : Word) : Instr :=
  let x := nibble2 w
  if imm8 w = 0x07#8 then .ldVxDT x
  else if imm8 w = 0x0A#8 then .ldVxK x
  else if imm8 w = 0x15#8 then .ldDTVx x
  else if imm8 w = 0x18#8 then .ldSTVx x
  else if imm8 w = 0x1E#8 then .addIVx x
  else if imm8 w = 0x29#8 then .ldF x
  else if imm8 w = 0x33#8 then .ldB x
  else if imm8 w = 0x55#8 then .storeRegs x
  else if imm8 w = 0x65#8 then .loadRegs x
  else .unknown w

/-- The first-level switch on `n1` (R67). Total: every word selects one behaviour (R62, R69). Groups 5 and 9 need
`n4 = 0` (R71). -/
def decodeWith (p : Config.Params) (w : Word) : Instr :=
  let x := nibble2 w
  let y := nibble3 w
  if nibble1 w = 0x0#4 then decodeGroup0 p w
  else if nibble1 w = 0x1#4 then .jp (addr12 w)
  else if nibble1 w = 0x2#4 then .call (addr12 w)
  else if nibble1 w = 0x3#4 then .seImm x (imm8 w)
  else if nibble1 w = 0x4#4 then .sneImm x (imm8 w)
  else if nibble1 w = 0x5#4 then (if nibble4 w = 0x0#4 then .seReg x y else .unknown w)
  else if nibble1 w = 0x6#4 then .ldImm x (imm8 w)
  else if nibble1 w = 0x7#4 then .addImm x (imm8 w)
  else if nibble1 w = 0x8#4 then decodeGroup8 w
  else if nibble1 w = 0x9#4 then (if nibble4 w = 0x0#4 then .sneReg x y else .unknown w)
  else if nibble1 w = 0xA#4 then .ldI (addr12 w)
  else if nibble1 w = 0xB#4 then .jpV0 (addr12 w)
  else if nibble1 w = 0xC#4 then .rnd x (imm8 w)
  else if nibble1 w = 0xD#4 then .drw x y (nibble4 w)
  else if nibble1 w = 0xE#4 then decodeGroupE w
  else decodeGroupF w

/-- The decoder of a core with the default configuration (R6). -/
def decode (w : Word) : Instr := decodeWith Machine.params w

/-- Why a list of bytes gives no instruction: it is shorter than the one instruction length (R65). No two bytes are
rejected: every word is an instruction or the unknown-opcode no-op (R62, R69). -/
inductive DecodeError where
  | truncated
  deriving DecidableEq, Repr

/-- Two bytes, the high one first (R44, R61), and the bytes after them. -/
def decodeBytes : List Byte → Except DecodeError (Instr × List Byte)
  | hi :: lo :: rest => .ok (decode (hi ++ lo), rest)
  | [_] => .error .truncated
  | [] => .error .truncated

/-- Format NNN (R65). -/
def formatNNN (n1 : Nibble) (nnn : Imm12) : Word := n1 ++ nnn

/-- Format XNN, and XKK with the sub-opcode as `nn` (R65). -/
def formatXNN (n1 x : Nibble) (nn : Byte) : Word := n1 ++ x ++ nn

/-- Format XYN (R65). -/
def formatXYN (n1 x y n4 : Nibble) : Word := n1 ++ x ++ y ++ n4

/-- The word of an instruction, from the formats of R65 and the map of R68. -/
def encode : Instr → Word
  | .cls => 0x00E0#16
  | .ret => 0x00EE#16
  | .jp nnn => formatNNN 0x1#4 nnn
  | .call nnn => formatNNN 0x2#4 nnn
  | .seImm x nn => formatXNN 0x3#4 x nn
  | .sneImm x nn => formatXNN 0x4#4 x nn
  | .seReg x y => formatXYN 0x5#4 x y 0x0#4
  | .ldImm x nn => formatXNN 0x6#4 x nn
  | .addImm x nn => formatXNN 0x7#4 x nn
  | .ldReg x y => formatXYN 0x8#4 x y 0x0#4
  | .orReg x y => formatXYN 0x8#4 x y 0x1#4
  | .andReg x y => formatXYN 0x8#4 x y 0x2#4
  | .xorReg x y => formatXYN 0x8#4 x y 0x3#4
  | .addReg x y => formatXYN 0x8#4 x y 0x4#4
  | .subReg x y => formatXYN 0x8#4 x y 0x5#4
  | .shr x y => formatXYN 0x8#4 x y 0x6#4
  | .subnReg x y => formatXYN 0x8#4 x y 0x7#4
  | .shl x y => formatXYN 0x8#4 x y 0xE#4
  | .sneReg x y => formatXYN 0x9#4 x y 0x0#4
  | .ldI nnn => formatNNN 0xA#4 nnn
  | .jpV0 nnn => formatNNN 0xB#4 nnn
  | .rnd x nn => formatXNN 0xC#4 x nn
  | .drw x y n => formatXYN 0xD#4 x y n
  | .skp x => formatXNN 0xE#4 x 0x9E#8
  | .sknp x => formatXNN 0xE#4 x 0xA1#8
  | .ldVxDT x => formatXNN 0xF#4 x 0x07#8
  | .ldVxK x => formatXNN 0xF#4 x 0x0A#8
  | .ldDTVx x => formatXNN 0xF#4 x 0x15#8
  | .ldSTVx x => formatXNN 0xF#4 x 0x18#8
  | .addIVx x => formatXNN 0xF#4 x 0x1E#8
  | .ldF x => formatXNN 0xF#4 x 0x29#8
  | .ldB x => formatXNN 0xF#4 x 0x33#8
  | .storeRegs x => formatXNN 0xF#4 x 0x55#8
  | .loadRegs x => formatXNN 0xF#4 x 0x65#8
  | .unknown w => w

/-- The high byte of a word, the one at the lower address (R44). -/
def highByte (w : Word) : Byte := w.extractLsb' 8 8

/-- The low byte of a word (R44). -/
def lowByte (w : Word) : Byte := w.extractLsb' 0 8

/-- The bytes of an instruction as `MEM` holds them, the first at the lowest address (R44, R65). -/
def encodeBytes (i : Instr) : List Byte := [highByte (encode i), lowByte (encode i)]

/-- The word spec/opcode_table.json numbers `w` with `nbits` bits given: the bits above `nbits` are 0. -/
def tableWord (nbits w : Nat) : Word := BitVec.ofNat 16 (w % 2 ^ nbits)

/-- What the decoder reads from the table's word, laid out in bytes as `MEM` holds it. -/
def decodeTableWord (nbits w : Nat) : Option Instr :=
  match decodeBytes [highByte (tableWord nbits w), lowByte (tableWord nbits w)] with
  | .ok (i, _) => some i
  | .error _ => none

end Sys2Proof
end

