-- ==== Sys2Proof/Machine/State.lean ====
section
/-! DEFINITION. The state of the core: the eight elements of R13, the configuration it was constructed with (R6) and the
model's own query counter; its faults and refusals; the state after reset (R31). -/

namespace Sys2Proof.Machine

/-- `MEM` as the list of its bytes that are not 0, the reset contents (R27, R31, R60); its form is `Memory.wf`. -/
abbrev Memory := List Host.Cell

/-- The form every memory of the model has: addresses strictly rising, all of them in `MEM`, and no entry equal to
what an unlisted address reads as. -/
abbrev Memory.wf (m : Memory) : Prop :=
  m.Pairwise (fun a b => a.1 < b.1) ∧ ∀ c ∈ m, c.1 ≤ Config.lastAddress ∧ c.2 ≠ 0#8

/-- The framebuffer, one bit vector a row; bit `x` of row `y` is `FB(x, y)` (R26: the packing is not architectural). -/
abbrev Screen := Vector (BitVec 64) 32

/-- The architectural state (R13), the configuration, and the model's query counter. -/
structure State where
  /-- `V[0]` to `V[15]` (R14). -/
  v : Vector Byte 16
  /-- `I` (R16). -/
  i : Word
  /-- `PC` (R17). -/
  pc : Word
  /-- `SP`, the number of return addresses on the stack (R22). -/
  sp : Nat
  /-- `STACK`, slot 0 first (R22, R23); that it has STACK_CAPACITY slots and `SP` is at most that is `StackShaped`. -/
  stack : List Word
  /-- `DT` (R24). -/
  dt : Byte
  /-- `ST` (R25). -/
  st : Byte
  /-- `FB` (R26). -/
  fb : Screen
  /-- `MEM` (R27). -/
  mem : Memory
  /-- THE MODEL'S OWN FIELD (log 1): how many answers the Keypad and RandomSource ports have given. It is no state of
  the core; it makes each answer a fresh free value of `Config`. -/
  portQueries : Nat
  /-- THE CONFIGURATION (R6, log 2), fixed at construction: read by the steps and written by none. It is no state of the
  core; a claim over states quantifies over it. -/
  config : Config.Params
  deriving DecidableEq, Repr

/-- The fatal conditions (R160 to R163). A tick that ends in one changes no state (R166): `tick` hands back the state
it began with. SAFE: the claims about a next state say nothing of such a tick. -/
inductive Fault where
  /-- FAULT_STACK_OVERFLOW (R161): raised by `2nnn` when `SP = STACK_CAPACITY`. Safe. -/
  | stackOverflow
  /-- FAULT_STACK_UNDERFLOW (R162): raised by `00EE` when `SP = 0`. Safe. -/
  | stackUnderflow
  /-- FAULT_MEM_OOB (R163): raised by the fetch, `Dxyn`, `Fx33`, `Fx55` and `Fx65` when a byte they need lies above
  address 4095. Safe. -/
  | memOutOfBounds
  deriving DecidableEq, Repr

/-- What the model gives no meaning. No instruction is refused. -/
inductive Refusal where
  /-- An instruction with no meaning yet: raised by no arm of `exec`. Safe. -/
  | notModelled (mnemonic : String)
  /-- `LoadProgram` of more bytes than fit from 0x200 (R196, H2): raised by `hostStep`. Safe. -/
  | programTooLong
  /-- `LoadFont` of a table that is not 80 bytes, or that would extend past 0xFFF (R197, H2): raised by `hostStep`.
  Safe. -/
  | fontOutsideContract
  /-- `DebugWrite` of an `SP` above STACK_CAPACITY or of a slot the stack does not have (R201, H3): raised by `hostStep`.
  Safe. -/
  | debugWriteOutsideType
  deriving DecidableEq, Repr

/-- A call the core makes on a port, with the port's answer (R178 to R181). -/
inductive PortCall where
  /-- `DisplayPixel(x, y, c)` (R178). -/
  | displayPixel (x : Fin 64) (y : Fin 32) (c : Bool)
  /-- `DisplayClear()` (R178). -/
  | displayClear
  /-- `KeyPressed(k)` and its answer (R179). -/
  | keyPressed (k : Nibble) (answer : Bool)
  /-- `KeyAny()` and its answer (R180). -/
  | keyAny (answer : Option Nibble)
  /-- `RandomByte()` and its answer (R181). -/
  | randomByte (answer : Byte)
  deriving DecidableEq, Repr

/-- The state after construction with a configuration, and after every `Reset` of that core (R31, R192): all zero but
`PC = 0x200`. The counter's 0 is a DESIGN CHOICE (log 1). -/
def State.resetWith (p : Config.Params) : State :=
  { v := Vector.replicate 16 0#8
    i := 0#16
    pc := BitVec.ofNat 16 Config.progBase
    sp := 0
    stack := List.replicate p.stackCapacity 0#16
    dt := 0#8
    st := 0#8
    fb := Vector.replicate 32 0#64
    mem := []
    portQueries := 0
    config := p }

/-- The reset state of a core with the default configuration (R6, R31). -/
def State.reset : State := State.resetWith params

end Sys2Proof.Machine
end

