-- ==== Sys2Proof/Machine/Ops.lean ====
section
/-! DEFINITION. The named operations over registers, memory, the stack, the framebuffer and the ports (R8, R9), the one
way a fatal condition ends a tick, and the fetch (R61). -/

namespace Sys2Proof.Machine

/-! ### Ending a tick -/

/-- `raise <Fault>` (R9, R168): the tick ends with the fatal result; nothing is saved, no mode changes, control goes
nowhere in `MEM`, and no state changes (R166). There is no return from it (R169). -/
def raise (f : Fault) : Host.Outcome State Fault Refusal := .fault f

/-! ### General registers -/

/-- `V[r]` (R8, R14). -/
def State.getV (s : State) (r : Nibble) : Byte := s.v[r.toNat]'(by have := r.isLt; omega)

/-- `V[r] <- b` (R8, R14). -/
def State.setV (s : State) (r : Nibble) (b : Byte) : State :=
  { s with v := s.v.set r.toNat b (by have := r.isLt; omega) }

/-- `V[k] <- b0`, `V[k+1] <- b1`, ... for the bytes of a list (R135). -/
def State.setVFrom (s : State) (k : Nat) : List Byte → State
  | [] => s
  | b :: bs => State.setVFrom (s.setV (BitVec.ofNat 4 k) b) (k + 1) bs

/-- The values of `V[0]` to `V[x]`, inclusive (R134). -/
def State.registersTo (s : State) (x : Nibble) : List Byte :=
  (List.range (x.toNat + 1)).map fun k => s.getV (BitVec.ofNat 4 k)

/-! ### Program counter (R20) -/

/-- `next`: `PC <- PC0 + 2` (R9, R20). -/
def State.advance (s : State) : State := { s with pc := s.pc + 2 }

/-- `skip(cond)`: `PC <- PC0 + 4` if `cond`, else `PC <- PC0 + 2` (R9, R20). -/
def State.skip (s : State) (cond : Bool) : State :=
  { s with pc := s.pc + (if cond then 4 else 2) }

/-- `PC <- target`, with no increment added (R20). -/
def State.jumpTo (s : State) (target : Word) : State := { s with pc := target }

/-! ### Memory (R41 to R60) -/

/-- The byte at an address of `MEM`; an address nothing lists reads 0, the reset contents (R31, R50). -/
def Memory.get : Memory → Nat → Byte
  | [], _ => 0#8
  | (b, w) :: m, a => if b = a then w else Memory.get m a

/-- A byte put in its place in the rising order. -/
def Memory.insert : Memory → Nat → Byte → Memory
  | [], a, b => [(a, b)]
  | (c, w) :: m, a, b => if a < c then (a, b) :: (c, w) :: m else (c, w) :: Memory.insert m a b

/-- A write to one byte (R50): the old entry goes, and a byte equal to what an unlisted address reads as is not
listed. -/
def Memory.set (m : Memory) (a : Nat) (b : Byte) : Memory :=
  let rest := m.filter fun c => c.1 != a
  if b = 0#8 then rest else Memory.insert rest a b

/-- The bytes at `a`, `a+1`, ..., `a+n-1` (R43, R45). -/
def Memory.getBlock (m : Memory) (a n : Nat) : List Byte :=
  (List.range n).map fun k => Memory.get m (a + k)

/-- The bytes of a list written at `a`, `a+1`, ... (R43, R45). -/
def Memory.setBlock (m : Memory) (a : Nat) : List Byte → Memory
  | [] => m
  | b :: bs => Memory.setBlock (Memory.set m a b) (a + 1) bs

/-- The bounds rule for the `n` bytes from `base` on, over the integers; no byte is no access (R46, R47). -/
def blockInBounds (base : Word) (n : Nat) : Bool :=
  n == 0 || decide (base.toNat + (n - 1) ≤ Config.lastAddress)

/-- `Fetch16(PC)`: `MEM[PC] : MEM[PC + 1]`, the byte at the lower address high (R44, R61); nothing when a byte of it
lies above address 4095 (R46). -/
def fetchWord (s : State) : Option Word :=
  if blockInBounds s.pc 2 then some (Memory.get s.mem s.pc.toNat ++ Memory.get s.mem (s.pc.toNat + 1)) else none

/-- A word put where the next fetch reads, big-endian (R44); a `PC` at which nothing can be fetched is first moved to
the reset vector. -/
def placeWord (s : State) (w : Word) : State :=
  let pc0 := if blockInBounds s.pc 2 then s.pc else BitVec.ofNat 16 Config.progBase
  { s with pc := pc0, mem := Memory.setBlock s.mem pc0.toNat [highByte w, lowByte w] }

/-! ### Call stack (R22, R23) -/

/-- `STACK[k]` (R8). -/
def State.slot (s : State) (k : Nat) : Word := s.stack.getD k 0#16

/-- `STACK[SP] <- a; SP <- SP + 1`; with `SP` at the capacity the fatal condition of R161. -/
def State.push (s : State) (a : Word) : Except Fault State :=
  if s.sp = s.config.stackCapacity then .error .stackOverflow
  else .ok { s with stack := s.stack.set s.sp a, sp := s.sp + 1 }

/-- `SP <- SP - 1`, and the address in that slot, which keeps it (R22, R23); with `SP = 0` the fatal condition of
R162. -/
def State.pop (s : State) : Except Fault (Word × State) :=
  if s.sp = 0 then .error .stackUnderflow else .ok (s.slot (s.sp - 1), { s with sp := s.sp - 1 })

/-! ### Framebuffer (R26) -/

/-- The pixel at column `x`, row `y` of a screen (R8, R26). -/
def Screen.pixel (fb : Screen) (x : Fin 64) (y : Fin 32) : Bool := fb[y.val].getLsbD x.val

/-- The pixel XORed with 1 (R122). -/
def Screen.toggle (fb : Screen) (x : Fin 64) (y : Fin 32) : Screen :=
  fb.set y.val (fb[y.val] ^^^ (1#64 <<< x.val))

/-- The pixel set to `c` (R201). -/
def Screen.setPixel (fb : Screen) (x : Fin 64) (y : Fin 32) (c : Bool) : Screen :=
  if Screen.pixel fb x y = c then fb else Screen.toggle fb x y

/-- Every pixel 0 (R121). -/
def Screen.clear : Screen := Vector.replicate 32 0#64

/-- `FB(x, y)` (R8). -/
def State.pixel (s : State) (x : Fin 64) (y : Fin 32) : Bool := Screen.pixel s.fb x y

/-- What a draw has done so far: the framebuffer, whether a set pixel was cleared, and the Display calls in the order
made (R122, R125, R128). -/
structure Drawing where
  fb : Screen
  collision : Bool
  calls : List PortCall
  deriving DecidableEq, Repr

/-- Where the sprite bit of row `i`, column `j` lands: past an edge it is dropped, or with DRAW_WRAPS wraps (R124,
D8). -/
def spritePixel (p : Config.Params) (x0 y0 i j : Nat) : Option (Fin 64 × Fin 32) :=
  if p.drawWraps then some (Fin.ofNat 64 (x0 + j), Fin.ofNat 32 (y0 + i))
  else if h : x0 + j < 64 ∧ y0 + i < 32 then some (⟨x0 + j, h.1⟩, ⟨y0 + i, h.2⟩)
  else none

/-- One sprite bit (R122 steps 4 and 5): a 1 on screen toggles its pixel, tells the Display the new value, and
collides when the pixel was 1. -/
def Drawing.plot (p : Config.Params) (x0 y0 i j : Nat) (bit : Bool) (d : Drawing) : Drawing :=
  match bit, spritePixel p x0 y0 i j with
  | true, some (px, py) =>
    let old := Screen.pixel d.fb px py
    { fb := Screen.toggle d.fb px py
      collision := d.collision || old
      calls := d.calls ++ [.displayPixel px py (!old)] }
  | true, none => d
  | false, _ => d

/-- One sprite row, bit 7 first (R120, R122 step 4). -/
def Drawing.row (p : Config.Params) (x0 y0 i : Nat) (b : Byte) (d : Drawing) : Drawing :=
  (List.range 8).foldl (fun d j => Drawing.plot p x0 y0 i j (b.getLsbD (7 - j)) d) d

/-- The sprite rows from row `i` on, in ascending order (R122 step 3). -/
def Drawing.rows (p : Config.Params) (x0 y0 : Nat) : Nat → List Byte → Drawing → Drawing
  | _, [], d => d
  | i, b :: bs, d => Drawing.rows p x0 y0 (i + 1) bs (Drawing.row p x0 y0 i b d)

/-! ### Ports (R178 to R181)

Each answer is a free value of `Config` applied to the count of answers so far, and each query advances the count
(log 1). -/

/-- The answer `KeyPressed(k)` gets now (R179). -/
def State.keyPressedAnswer (s : State) (k : Nibble) : Bool := Config.keyPressed s.portQueries k

/-- The answer `KeyAny()` gets now (R180). -/
def State.keyAnyAnswer (s : State) : Option Nibble := Config.keyAny s.portQueries

/-- The answer `RandomByte()` gets now (R181). -/
def State.randomByteAnswer (s : State) : Byte := Config.randomByte s.portQueries

/-- One answer has been given. -/
def State.queried (s : State) : State := { s with portQueries := s.portQueries + 1 }

end Sys2Proof.Machine
end

