-- ==== Sys2Proof/Machine/Flags.lean ====
section
/-! DEFINITION. The values VF takes as a flag, and the two writes of a flag-setting instruction (R15, R112). -/

namespace Sys2Proof.Machine

/-- A flag is 0 or 1 (R15). -/
def flagOf (b : Bool) : Byte := if b then 1#8 else 0#8

/-- 1 iff the mathematical sum exceeds 255 (R106). -/
def carryFlag (a b : Byte) : Byte := flagOf (decide (a.toNat + b.toNat > 255))

/-- 1, no borrow, iff the minuend is at least the subtrahend (R107, R109, conflict C1). -/
def noBorrowFlag (minuend subtrahend : Byte) : Byte := flagOf (decide (minuend.toNat ≥ subtrahend.toNat))

/-- Bit 0, the bit a right shift shifts out (R108). -/
def rightShiftFlag (a : Byte) : Byte := flagOf (a.getLsbD 0)

/-- Bit 7, the bit a left shift shifts out (R110). -/
def leftShiftFlag (a : Byte) : Byte := flagOf (a.getLsbD 7)

/-- `V[x] <- result`, then `V[15] <- flag`: with `x = 15` the flag stays (R112, D7). -/
def State.setResultAndFlag (s : State) (x : Nibble) (result flag : Byte) : State :=
  (s.setV x result).setV flagReg flag

end Sys2Proof.Machine
end

