-- ==== Sys2Proof/Machine/Operands.lean ====
section
/-! DEFINITION. The operand forms (R64, R137): what a register field selects as a key, a digit, a coordinate, a shift
source, and the address of a glyph. -/

namespace Sys2Proof.Machine

/-- `V[x][3:0]`, a key number or a glyph digit; bits 7:4 are ignored (R94, R95, R132, D4). -/
def State.lowNibble (s : State) (x : Nibble) : Nibble := (s.getV x).extractLsb' 0 4

/-- `V[x] mod 64`, the column of a sprite's origin (R123). -/
def State.originColumn (s : State) (x : Nibble) : Nat := (s.getV x).toNat % 64

/-- `V[y] mod 32`, the row of a sprite's origin (R123). -/
def State.originRow (s : State) (y : Nibble) : Nat := (s.getV y).toNat % 32

/-- What `8xy6` and `8xyE` shift: `V[x]`, or with SHIFT_USES_VY `V[y]` (R108, R110, D5). -/
def State.shiftSource (s : State) (x y : Nibble) : Byte :=
  if s.config.shiftUsesVy then s.getV y else s.getV x

/-- `FONT_BASE + 5 * d` (R132). -/
def State.glyphAddress (s : State) (d : Nibble) : Word :=
  BitVec.ofNat 16 (s.config.fontBase.toNat + Config.glyphBytes * d.toNat)

/-- The decimal digits of a byte, hundreds first (R133). -/
def decimalDigits (b : Byte) : List Byte :=
  [BitVec.ofNat 8 (b.toNat / 100), BitVec.ofNat 8 (b.toNat / 10 % 10), BitVec.ofNat 8 (b.toNat % 10)]

/-- The `n` sprite rows at `I` (R122 step 3). -/
def State.spriteRows (s : State) (n : Nibble) : List Byte := Memory.getBlock s.mem s.i.toNat n.toNat

end Sys2Proof.Machine
end

