-- ==== Sys2Proof/Machine/ArithmeticLogic.lean ====
section
/-! DEFINITION. Register load, arithmetic, logic, shift and random (42_arithmetic_logic.md). Operands are read from
the state at the start of the tick (R113). -/

namespace Sys2Proof.Machine

/-- `6xnn` LD Vx, nn (R100). -/
def execLdImm (x : Nibble) (nn : Byte) (s : State) : Host.Outcome State Fault Refusal :=
  .next (s.setV x nn).advance

/-- `7xnn` ADD Vx, nn: no flag (R101). -/
def execAddImm (x : Nibble) (nn : Byte) (s : State) : Host.Outcome State Fault Refusal :=
  .next (s.setV x (s.getV x + nn)).advance

/-- `8xy0` LD Vx, Vy (R102). -/
def execLdReg (x y : Nibble) (s : State) : Host.Outcome State Fault Refusal :=
  .next (s.setV x (s.getV y)).advance

/-- `8xy1` OR Vx, Vy: no flag (R103). -/
def execOrReg (x y : Nibble) (s : State) : Host.Outcome State Fault Refusal :=
  .next (s.setV x (s.getV x ||| s.getV y)).advance

/-- `8xy2` AND Vx, Vy: no flag (R104). -/
def execAndReg (x y : Nibble) (s : State) : Host.Outcome State Fault Refusal :=
  .next (s.setV x (s.getV x &&& s.getV y)).advance

/-- `8xy3` XOR Vx, Vy: no flag (R105). -/
def execXorReg (x y : Nibble) (s : State) : Host.Outcome State Fault Refusal :=
  .next (s.setV x (s.getV x ^^^ s.getV y)).advance

/-- `8xy4` ADD Vx, Vy (R106). -/
def execAddReg (x y : Nibble) (s : State) : Host.Outcome State Fault Refusal :=
  .next (s.setResultAndFlag x (s.getV x + s.getV y) (carryFlag (s.getV x) (s.getV y))).advance

/-- `8xy5` SUB Vx, Vy: `V[x] - V[y]` (R107). -/
def execSubReg (x y : Nibble) (s : State) : Host.Outcome State Fault Refusal :=
  .next (s.setResultAndFlag x (s.getV x - s.getV y) (noBorrowFlag (s.getV x) (s.getV y))).advance

/-- `8xy6` SHR Vx; `y` is read only with SHIFT_USES_VY (R108, D5). -/
def execShr (x y : Nibble) (s : State) : Host.Outcome State Fault Refusal :=
  .next (s.setResultAndFlag x (s.shiftSource x y >>> 1) (rightShiftFlag (s.shiftSource x y))).advance

/-- `8xy7` SUBN Vx, Vy: `V[y] - V[x]` (R109). -/
def execSubnReg (x y : Nibble) (s : State) : Host.Outcome State Fault Refusal :=
  .next (s.setResultAndFlag x (s.getV y - s.getV x) (noBorrowFlag (s.getV y) (s.getV x))).advance

/-- `8xyE` SHL Vx; `y` is read only with SHIFT_USES_VY (R110, D5). -/
def execShl (x y : Nibble) (s : State) : Host.Outcome State Fault Refusal :=
  .next (s.setResultAndFlag x (s.shiftSource x y <<< 1) (leftShiftFlag (s.shiftSource x y))).advance

/-- `Cxnn` RND Vx, nn: one `RandomByte` query, whatever the mask (R111). -/
def execRnd (x : Nibble) (nn : Byte) (s : State) : Host.Outcome State Fault Refusal :=
  .next (s.queried.setV x (s.randomByteAnswer &&& nn)).advance

end Sys2Proof.Machine
end

