-- ==== Sys2Proof/Machine/ConditionalSkip.lean ====
section
/-! DEFINITION. The conditional skips (41_conditional_skip.md). -/

namespace Sys2Proof.Machine

/-- `3xnn` SE Vx, nn (R90). -/
def execSeImm (x : Nibble) (nn : Byte) (s : State) : Host.Outcome State Fault Refusal :=
  .next (s.skip (s.getV x == nn))

/-- `4xnn` SNE Vx, nn (R91). -/
def execSneImm (x : Nibble) (nn : Byte) (s : State) : Host.Outcome State Fault Refusal :=
  .next (s.skip (s.getV x != nn))

/-- `5xy0` SE Vx, Vy (R92). -/
def execSeReg (x y : Nibble) (s : State) : Host.Outcome State Fault Refusal :=
  .next (s.skip (s.getV x == s.getV y))

/-- `9xy0` SNE Vx, Vy (R93). -/
def execSneReg (x y : Nibble) (s : State) : Host.Outcome State Fault Refusal :=
  .next (s.skip (s.getV x != s.getV y))

/-- `Ex9E` SKP Vx: one `KeyPressed` query (R94). -/
def execSkp (x : Nibble) (s : State) : Host.Outcome State Fault Refusal :=
  .next (s.queried.skip (s.keyPressedAnswer (s.lowNibble x)))

/-- `ExA1` SKNP Vx: one `KeyPressed` query (R95). -/
def execSknp (x : Nibble) (s : State) : Host.Outcome State Fault Refusal :=
  .next (s.queried.skip (!s.keyPressedAnswer (s.lowNibble x)))

end Sys2Proof.Machine
end

