-- ==== Sys2Proof/Machine/ControlTransfer.lean ====
section
/-! DEFINITION. The instructions that set `PC` directly (40_control_transfer.md). -/

namespace Sys2Proof.Machine

/-- `1nnn` JP nnn (R81). -/
def execJp (nnn : Imm12) (s : State) : Host.Outcome State Fault Refusal := .next (s.jumpTo (zext12 nnn))

/-- `2nnn` CALL nnn: the pushed value is `PC0 + 2` (R82). -/
def execCall (nnn : Imm12) (s : State) : Host.Outcome State Fault Refusal :=
  match s.push (s.pc + 2) with
  | .ok t => .next (t.jumpTo (zext12 nnn))
  | .error f => raise f

/-- `00EE` RET: the popped address goes to `PC` with nothing added (R83). -/
def execRet (s : State) : Host.Outcome State Fault Refusal :=
  match s.pop with
  | .ok (a, t) => .next (t.jumpTo a)
  | .error f => raise f

/-- `Bnnn` JP V0, nnn (R84). -/
def execJpV0 (nnn : Imm12) (s : State) : Host.Outcome State Fault Refusal :=
  .next (s.jumpTo (zext12 nnn + zext8 (s.getV 0#4)))

end Sys2Proof.Machine
end

