-- ==== Sys2Proof/Machine/Display.lean ====
section
/-! DEFINITION. The display instructions (43_display.md). -/

namespace Sys2Proof.Machine

/-- `00E0` CLS (R121). -/
def execCls (s : State) : Host.Outcome State Fault Refusal := .next { s with fb := Screen.clear }.advance

/-- What `Dxyn` draws, from the registers, `I` and `MEM` at the start of the tick (R122, R125). -/
def State.drawing (s : State) (x y n : Nibble) : Drawing :=
  Drawing.rows s.config (s.originColumn x) (s.originRow y) 0 (s.spriteRows n) { fb := s.fb, collision := false, calls := [] }

/-- `Dxyn` DRW Vx, Vy, n: all `n` rows are bounds-checked before anything is drawn, and VF is written last (R122,
D21). -/
def execDrw (x y n : Nibble) (s : State) : Host.Outcome State Fault Refusal :=
  if blockInBounds s.i n.toNat then
    .next ({ s with fb := (s.drawing x y n).fb }.setV flagReg (flagOf (s.drawing x y n).collision)).advance
  else raise .memOutOfBounds

end Sys2Proof.Machine
end

