-- ==== Sys2Proof/Machine/IndexMemory.lean ====
section
/-! DEFINITION. Index register, glyph, BCD and register block (44_index_memory.md). -/

namespace Sys2Proof.Machine

/-- `Annn` LD I, nnn (R130). -/
def execLdI (nnn : Imm12) (s : State) : Host.Outcome State Fault Refusal := .next { s with i := zext12 nnn }.advance

/-- `Fx1E` ADD I, Vx: modulo 2^16, no flag, no bounds check (R131). -/
def execAddIVx (x : Nibble) (s : State) : Host.Outcome State Fault Refusal :=
  .next { s with i := s.i + zext8 (s.getV x) }.advance

/-- `Fx29` LD F, Vx (R132). -/
def execLdF (x : Nibble) (s : State) : Host.Outcome State Fault Refusal :=
  .next { s with i := s.glyphAddress (s.lowNibble x) }.advance

/-- `Fx33` LD B, Vx: hundreds, tens, ones at `I`, `I+1`, `I+2`, checked before the first write (R133). -/
def execLdB (x : Nibble) (s : State) : Host.Outcome State Fault Refusal :=
  if blockInBounds s.i 3 then
    .next { s with mem := Memory.setBlock s.mem s.i.toNat (decimalDigits (s.getV x)) }.advance
  else raise .memOutOfBounds

/-- `Fx55` LD [I], Vx: `V[0]` to `V[x]` to `I` to `I+x`, checked before the first write; `I` stays (R134, R136). -/
def execStoreRegs (x : Nibble) (s : State) : Host.Outcome State Fault Refusal :=
  if blockInBounds s.i (x.toNat + 1) then
    .next { s with mem := Memory.setBlock s.mem s.i.toNat (s.registersTo x) }.advance
  else raise .memOutOfBounds

/-- `Fx65` LD Vx, [I]: `V[0]` to `V[x]` from `I` to `I+x`, checked first; `I` stays (R135, R136). -/
def execLoadRegs (x : Nibble) (s : State) : Host.Outcome State Fault Refusal :=
  if blockInBounds s.i (x.toNat + 1) then
    .next (s.setVFrom 0 (Memory.getBlock s.mem s.i.toNat (x.toNat + 1))).advance
  else raise .memOutOfBounds

end Sys2Proof.Machine
end

