-- ==== Sys2Proof/Machine/TimersKeypad.lean ====
section
/-! DEFINITION. Timer instructions and the key-wait (45_timers_keypad.md). -/

namespace Sys2Proof.Machine

/-- `Fx07` LD Vx, DT (R140). -/
def execLdVxDT (x : Nibble) (s : State) : Host.Outcome State Fault Refusal := .next (s.setV x s.dt).advance

/-- `Fx15` LD DT, Vx (R141). -/
def execLdDTVx (x : Nibble) (s : State) : Host.Outcome State Fault Refusal := .next { s with dt := s.getV x }.advance

/-- `Fx18` LD ST, Vx (R142). -/
def execLdSTVx (x : Nibble) (s : State) : Host.Outcome State Fault Refusal := .next { s with st := s.getV x }.advance

/-- `Fx0A` LD Vx, K: one `KeyAny` query; on `none` nothing of the core's state changes and `PC` stays, on `some k` the
key is written (R143). -/
def execLdVxK (x : Nibble) (s : State) : Host.Outcome State Fault Refusal :=
  .next (match s.keyAnyAnswer with
    | none => s.queried
    | some k => (s.queried.setV x (k.setWidth 8)).advance)

end Sys2Proof.Machine
end

