-- ==== Sys2Proof/Machine/UnknownOpcode.lean ====
section
/-! DEFINITION. The unknown-opcode no-op (46_unknown_opcode.md). -/

namespace Sys2Proof.Machine

/-- A word no row of R68 matches: `next` only (R150). -/
def execUnknown (_w : Word) (s : State) : Host.Outcome State Fault Refusal := .next s.advance

end Sys2Proof.Machine
end

