-- ==== Sys2Proof/Machine/Step.lean ====
section
/-! DEFINITION. One `Tick`: fetch, decode, execute (R73), and placing a word where the fetch reads. -/

namespace Sys2Proof.Machine

/-- The fetch-decode-execute part of `Tick` (R73): the fetch bounds check comes first (R167), then exactly one
instruction is executed. The host's moves between ticks are `hostStep` (log 3). -/
def step (s : State) : Host.Outcome State Fault Refusal :=
  match fetchWord s with
  | none => raise .memOutOfBounds
  | some w => exec (decodeWith s.config w) s

/-- The state with the table's word where `step` fetches next; it stands for the host's load (log 6). -/
def State.withFetchWord (s : State) (nbits w : Nat) : State := placeWord s (tableWord nbits w)

end Sys2Proof.Machine
end

