-- ==== Sys2Proof/Machine/HostOps.lean ====
section
/-! DEFINITION. What the host does to the core between ticks (70_reset_and_hazards.md section 3, 60_exceptions.md R176),
and any interleaving of ticks and host operations (R177, R194). -/

namespace Sys2Proof.Machine

/-- `DebugWrite`: one named element and a value of its type (R201). An `SP` or a slot number outside
the type is refused; any other value outside its type cannot be written down (H3). -/
inductive DebugWrite where
  | v (r : Nibble) (b : Byte)
  | i (w : Word)
  | pc (w : Word)
  | sp (n : Nat)
  | stack (k : Nat) (w : Word)
  | dt (b : Byte)
  | st (b : Byte)
  | pixel (x : Fin 64) (y : Fin 32) (c : Bool)
  | mem (a : Imm12) (b : Byte)
  deriving DecidableEq, Repr

/-- The host operations that may change state (R194). -/
inductive HostOp where
  | timerDecrement
  | reset
  | loadProgram (bytes : List Byte)
  | loadFont (bytes : List Byte)
  | debugWrite (d : DebugWrite)
  deriving DecidableEq, Repr

/-- A timer one lower, saturating at 0 (R24, R176). -/
def timerDown (b : Byte) : Byte := if b = 0#8 then 0#8 else b - 1

/-- `TimerDecrement` (R176): both timers, and nothing else. -/
def timerDecrement (s : State) : State := { s with dt := timerDown s.dt, st := timerDown s.st }

/-- `Reset` (R190, R191): every element of R31; the core keeps the configuration it was constructed with. The query counter goes on, so that later port answers stay fresh
(log 1). -/
def resetOp (s : State) : State := { State.resetWith s.config with portQueries := s.portQueries }

/-- `LoadProgram` (R196): bytes to `MEM[0x200]` on; an image that does not fit is refused (H2). -/
def loadProgram (bytes : List Byte) (s : State) : Host.Outcome State Fault Refusal :=
  if bytes.length ≤ Config.progCapacity then .next { s with mem := Memory.setBlock s.mem Config.progBase bytes }
  else .refused .programTooLong

/-- `LoadFont` (R197): the 80 bytes of the glyph table to `MEM[FONT_BASE]` on; anything else is refused (H2). -/
def loadFont (bytes : List Byte) (s : State) : Host.Outcome State Fault Refusal :=
  if bytes.length = Config.fontBytes ∧ s.config.fontBase.toNat + (Config.fontBytes - 1) ≤ Config.lastAddress then
    .next { s with mem := Memory.setBlock s.mem s.config.fontBase.toNat bytes }
  else .refused .fontOutsideContract

/-- `DebugWrite` (R201): the element named, and nothing else; an `SP` above STACK_CAPACITY and a slot the stack does not
have are refused (H3). -/
def debugWrite (d : DebugWrite) (s : State) : Host.Outcome State Fault Refusal :=
  match d with
  | .v r b => .next (s.setV r b)
  | .i w => .next { s with i := w }
  | .pc w => .next { s with pc := w }
  | .sp n => if n ≤ s.config.stackCapacity then .next { s with sp := n } else .refused .debugWriteOutsideType
  | .stack k w =>
    if k < s.config.stackCapacity then .next { s with stack := s.stack.set k w } else .refused .debugWriteOutsideType
  | .dt b => .next { s with dt := b }
  | .st b => .next { s with st := b }
  | .pixel x y c => .next { s with fb := Screen.setPixel s.fb x y c }
  | .mem a b => .next { s with mem := Memory.set s.mem a.toNat b }

/-- One host operation (R194). -/
def hostStep (op : HostOp) (s : State) : Host.Outcome State Fault Refusal :=
  match op with
  | .timerDecrement => .next (timerDecrement s)
  | .reset => .next (resetOp s)
  | .loadProgram bytes => loadProgram bytes s
  | .loadFont bytes => loadFont bytes s
  | .debugWrite d => debugWrite d s

/-- Introspection: the full register file (R200). -/
def State.registerFile (s : State) : List Byte := s.v.toList

/-- Introspection: the stack contents, stale slots included (R23, R200). -/
def State.stackContents (s : State) : List Word := s.stack

/-- Introspection: a window of `MEM`, cut at its end (R200). -/
def State.memWindow (s : State) (a n : Nat) : List Byte :=
  Memory.getBlock s.mem a (min n (Config.lastAddress + 1 - a))

/-- Something that happens to the core: a tick, or a host operation between ticks (R58, R194). -/
inductive Event where
  | tick
  | host (op : HostOp)
  deriving DecidableEq, Repr

/-- One event. A tick that ends in a fatal condition leaves the state as it was and latches nothing: the host may go on
(R166, R169). -/
def systemStep (e : Event) (s : State) : Host.Outcome State Fault Refusal :=
  match e with
  | .host op => hostStep op s
  | .tick =>
    match step s with
    | .next t => .next t
    | .fault _ => .next s
    | .refused r => .refused r

/-- Any sequence of ticks and host operations, in the order the host chooses (R177, R202). -/
def systemRun : List Event → State → Host.Outcome State Fault Refusal
  | [], s => .next s
  | e :: es, s =>
    match systemStep e s with
    | .next t => systemRun es t
    | .fault f => .fault f
    | .refused r => .refused r

end Sys2Proof.Machine
end

