-- ==== Sys2Proof/Machine/Tick.lean ====
section
/-! DEFINITION. The whole answer of a `Tick`: its result value, the state it leaves and the port calls it makes (R73,
R160, R166, R178 to R181). -/

namespace Sys2Proof.Machine

/-- What `Tick` returns to the host (R160). -/
inductive TickResult where
  | ok
  | waitKey
  | faultStackOverflow
  | faultStackUnderflow
  | faultMemOob
  deriving DecidableEq, Repr

/-- The numbers of R160 (the spec's own, D11). -/
def TickResult.code : TickResult → Nat
  | .ok => 0
  | .waitKey => 1
  | .faultStackOverflow => 2
  | .faultStackUnderflow => 3
  | .faultMemOob => 4

/-- The fatal ones (R160). -/
def TickResult.isFatal : TickResult → Bool
  | .ok | .waitKey => false
  | .faultStackOverflow | .faultStackUnderflow | .faultMemOob => true

/-- The result value that hands a fatal condition to the host (R160, R168). -/
def Fault.tickResult : Fault → TickResult
  | .stackOverflow => .faultStackOverflow
  | .stackUnderflow => .faultStackUnderflow
  | .memOutOfBounds => .faultMemOob

/-- What one `Tick` gives: result, state after, port calls in the order made. -/
structure TickOutput where
  result : TickResult
  state : State
  calls : List PortCall
  deriving DecidableEq, Repr

/-- The port calls of an instruction that is executed (R32, column "port"; R128). -/
def portCalls (i : Instr) (s : State) : List PortCall :=
  match i with
  | .cls => [.displayClear]
  | .drw x y n => (s.drawing x y n).calls
  | .rnd _ _ => [.randomByte s.randomByteAnswer]
  | .skp x | .sknp x => [.keyPressed (s.lowNibble x) (s.keyPressedAnswer (s.lowNibble x))]
  | .ldVxK _ => [.keyAny s.keyAnyAnswer]
  | .ret | .jp _ | .call _ | .seImm _ _ | .sneImm _ _ | .seReg _ _ | .ldImm _ _ | .addImm _ _ | .ldReg _ _
  | .orReg _ _ | .andReg _ _ | .xorReg _ _ | .addReg _ _ | .subReg _ _ | .shr _ _ | .subnReg _ _ | .shl _ _
  | .sneReg _ _ | .ldI _ | .jpV0 _ | .ldVxDT _ | .ldDTVx _ | .ldSTVx _ | .addIVx _ | .ldF _ | .ldB _
  | .storeRegs _ | .loadRegs _ | .unknown _ => []

/-- The instruction is the key-wait and the keypad reports no key (R29, R143). -/
def waitsForKey (i : Instr) (s : State) : Bool :=
  match i with
  | .ldVxK _ => s.keyAnyAnswer.isNone
  | .cls | .ret | .jp _ | .call _ | .seImm _ _ | .sneImm _ _ | .seReg _ _ | .ldImm _ _ | .addImm _ _
  | .ldReg _ _ | .orReg _ _ | .andReg _ _ | .xorReg _ _ | .addReg _ _ | .subReg _ _ | .shr _ _ | .subnReg _ _
  | .shl _ _ | .sneReg _ _ | .ldI _ | .jpV0 _ | .rnd _ _ | .drw _ _ _ | .skp _ | .sknp _ | .ldVxDT _
  | .ldDTVx _ | .ldSTVx _ | .addIVx _ | .ldF _ | .ldB _ | .storeRegs _ | .loadRegs _ | .unknown _ => false

/-- The spin-wait state of R29: `PC` addresses a key-wait and no key is reported. -/
def State.spinWaits (s : State) : Bool :=
  match fetchWord s with
  | some w => waitsForKey (decodeWith s.config w) s
  | none => false

/-- The answer of a tick that executed `i` to the state `t` (R73). -/
def completed (i : Instr) (s t : State) : TickOutput :=
  { result := if waitsForKey i s then .waitKey else .ok, state := t, calls := portCalls i s }

/-- The answer of a tick that ended in a fatal condition: the state it began with, and no port call (R166). -/
def faulted (f : Fault) (s : State) : TickOutput := { result := f.tickResult, state := s, calls := [] }

/-- `Tick` (R73): `step`, with the answer the host gets. A refusal of `step` is handed on; there is none. -/
def tick (s : State) : Except Refusal TickOutput :=
  match fetchWord s with
  | none => .ok (faulted .memOutOfBounds s)
  | some w =>
    match exec (decodeWith s.config w) s with
    | .next t => .ok (completed (decodeWith s.config w) s t)
    | .fault f => .ok (faulted f s)
    | .refused r => .error r

end Sys2Proof.Machine
end

