-- ==== Sys2Proof/Safety.lean ====
section
/-! DEFINITION. The terms claims are stated in: when an instruction is fatal (R161 to R165), what each instruction may
write (R32), what it means that nothing else changed, and the invariants of the machine. -/

namespace Sys2Proof.Machine

/-- The fatal condition an instruction meets in a state, written from R161, R162 and R163 (b) to (d). -/
def fatalCondition (i : Instr) (s : State) : Option Fault :=
  match i with
  | .call _ => if s.sp = s.config.stackCapacity then some .stackOverflow else none
  | .ret => if s.sp = 0 then some .stackUnderflow else none
  | .drw _ _ n => if 1 ≤ n.toNat ∧ s.i.toNat + n.toNat - 1 > 4095 then some .memOutOfBounds else none
  | .ldB _ => if s.i.toNat + 2 > 4095 then some .memOutOfBounds else none
  | .storeRegs x | .loadRegs x => if s.i.toNat + x.toNat > 4095 then some .memOutOfBounds else none
  | .cls | .jp _ | .seImm _ _ | .sneImm _ _ | .seReg _ _ | .ldImm _ _ | .addImm _ _ | .ldReg _ _ | .orReg _ _
  | .andReg _ _ | .xorReg _ _ | .addReg _ _ | .subReg _ _ | .shr _ _ | .subnReg _ _ | .shl _ _ | .sneReg _ _
  | .ldI _ | .jpV0 _ | .rnd _ _ | .skp _ | .sknp _ | .ldVxDT _ | .ldVxK _ | .ldDTVx _ | .ldSTVx _ | .addIVx _
  | .ldF _ | .unknown _ => none

/-- What may change, besides `PC`: registers, elements of state, bytes of `MEM` by address, the query counter. -/
structure Footprint where
  regs : List Nibble := []
  i : Bool := false
  stack : Bool := false
  dt : Bool := false
  st : Bool := false
  screen : Bool := false
  mem : List Nat := []
  ports : Bool := false
  deriving DecidableEq, Repr

/-- From `s` to `t` nothing outside the footprint changed, `PC` apart; the configuration is outside every footprint.
Memory is compared byte by byte, the framebuffer pixel by pixel. -/
def Frame (f : Footprint) (s t : State) : Prop :=
  (∀ r, r ∉ f.regs → t.getV r = s.getV r) ∧
  (f.i = false → t.i = s.i) ∧
  (f.stack = false → t.sp = s.sp ∧ t.stack = s.stack) ∧
  (f.dt = false → t.dt = s.dt) ∧
  (f.st = false → t.st = s.st) ∧
  (f.screen = false → ∀ x y, t.pixel x y = s.pixel x y) ∧
  (∀ a, a ∉ f.mem → Memory.get t.mem a = Memory.get s.mem a) ∧
  (f.ports = false → t.portQueries = s.portQueries) ∧
  t.config = s.config

/-- The `n` addresses from the value of `I` on, over the integers (R137). -/
def addressesAtI (s : State) (n : Nat) : List Nat := (List.range n).map fun k => s.i.toNat + k

/-- The W entries of the access table (R32); `ports` is the model's query counter, moved by the instructions that ask
the Keypad or the RandomSource. -/
def writeSet (i : Instr) (s : State) : Footprint :=
  match i with
  | .cls => { screen := true }
  | .ret | .call _ => { stack := true }
  | .ldImm x _ | .addImm x _ | .ldVxDT x => { regs := [x] }
  | .ldReg x _ | .orReg x _ | .andReg x _ | .xorReg x _ => { regs := [x] }
  | .addReg x _ | .subReg x _ | .subnReg x _ | .shr x _ | .shl x _ => { regs := [x, flagReg] }
  | .ldI _ | .addIVx _ | .ldF _ => { i := true }
  | .rnd x _ | .ldVxK x => { regs := [x], ports := true }
  | .drw _ _ _ => { regs := [flagReg], screen := true }
  | .skp _ | .sknp _ => { ports := true }
  | .ldDTVx _ => { dt := true }
  | .ldSTVx _ => { st := true }
  | .ldB _ => { mem := addressesAtI s 3 }
  | .storeRegs x => { mem := addressesAtI s (x.toNat + 1) }
  | .loadRegs x => { regs := (List.range (x.toNat + 1)).map (BitVec.ofNat 4) }
  | .jp _ | .jpV0 _ | .seImm _ _ | .sneImm _ _ | .seReg _ _ | .sneReg _ _ | .unknown _ => {}

/-- How far right of (or below) a sprite's origin a pixel lies: with DRAW_WRAPS modulo the size of the screen, else
over the integers, and nowhere for a pixel before the origin (R124, D8). -/
def offsetFromOrigin (wraps : Bool) (size origin pos : Nat) : Option Nat :=
  if wraps then some ((pos + size - origin) % size) else if origin ≤ pos then some (pos - origin) else none

/-- The sprite of `Dxyn` has a 1 bit at this pixel of the screen: clipped, or wrapped with DRAW_WRAPS (R123, R124, R125,
D8). -/
def spriteCovers (s : State) (x y n : Nibble) (px : Fin 64) (py : Fin 32) : Bool :=
  match offsetFromOrigin s.config.drawWraps 64 ((s.getV x).toNat % 64) px.val,
    offsetFromOrigin s.config.drawWraps 32 ((s.getV y).toNat % 32) py.val with
  | some j, some i =>
    decide (j < 8 ∧ i < n.toNat) && (Memory.get s.mem (s.i.toNat + i)).getLsbD (7 - j)
  | _, none => false
  | none, _ => false

/-- The memory has its canonical form. -/
def MemoryCanonical (s : State) : Prop := Memory.wf s.mem

/-- The stack has STACK_CAPACITY slots and `SP` is at most that (R22). -/
def StackShaped (s : State) : Prop := s.stack.length = s.config.stackCapacity ∧ s.sp ≤ s.config.stackCapacity

/-- `PC` and every stack slot lie where execution can put them: `PC` at most 0xFFF + 0xFF, a return address at most
4096 (R21). -/
def AddressesBounded (s : State) : Prop :=
  s.pc.toNat ≤ 0x10FE ∧ ∀ a ∈ s.stack, a.toNat ≤ 0x1000

/-- The two states differ at most in stack slots at or above `SP`, the stale ones (R23). -/
def SameButStaleSlots (s t : State) : Prop :=
  t = { s with stack := t.stack } ∧ t.stack.length = s.stack.length ∧ ∀ k, k < s.sp → t.slot k = s.slot k

/-- A jump to itself, the customary end of a program: a state every further tick leaves as it is (R207 (b)). -/
def SelfJump (s : State) : Prop := s.pc.toNat ≤ 0xFFF ∧ fetchWord s = some (0x1000#16 ||| s.pc)

/-- A safe tick: no fatal condition and no refusal. -/
def TicksSafely (s : State) : Prop := ∃ t, step s = .next t

end Sys2Proof.Machine
end

