-- ==== Sys2Proof/Certificates/Slice0/Obligations.lean ====
section
/-! DEFINITION. The statements for the provers, from the numbered rules of spec/. In a statement about one instruction
the first clause is the rule's encoding (the nibble pattern of R66), the next its effect: the next state, every
register, the `PC`, and that nothing outside the footprint changed. A state holds the configuration of its core, so a
statement about every state holds for every value of the parameters (R6, log 2). -/

open Sys2Proof Sys2Proof.Machine

/-! ### Encoding -/

/-- Decoding the word of a well-formed instruction gives it back, with every operand at every value (R62 to R68); with
ZERO_GROUP_LOOSE (D12) every instruction but the unknown opcodes. -/
def Obligations.DecodeInvertsEncode : Prop :=
  ∀ (p : Config.Params) (i : Instr), i.wf = true →
    (p.zeroGroupLoose = false ∨ ∀ w, i ≠ .unknown w) → decodeWith p (encode i) = i

/-- Every word decodes, to a well-formed instruction, and with group 0 matched exactly no bit of it is lost (R62, R67,
R69). -/
def Obligations.EncodeInvertsDecode : Prop :=
  ∀ (p : Config.Params) (w : Word), (decodeWith p w).wf = true ∧
    (p.zeroGroupLoose = false → encode (decodeWith p w) = w)

/-- A word is an unknown opcode exactly when no row of the opcode map matches it (R68, R69; group 0 matched exactly). -/
def Obligations.UnknownWordsMatchNoRow : Prop :=
  ∀ (p : Config.Params) (w : Word), p.zeroGroupLoose = false →
    (decodeWith p w = .unknown w ↔ ∀ r ∈ definedRows, w &&& r.mask ≠ r.value)

/-- No word matches two rows of the opcode map (R67). -/
def Obligations.OpcodeRowsNeverOverlap : Prop :=
  ∀ (w : Word) (r q : OpcodeRow), r ∈ definedRows → q ∈ definedRows →
    r.accepts w = true → q.accepts w = true → r = q

/-- Words of every family, from the examples of the rules, decode to the instructions they stand for. -/
def Obligations.SampleWordsDecode : Prop :=
  decode 0x00E0#16 = .cls ∧ decode 0x00EE#16 = .ret ∧ decode 0x1202#16 = .jp 0x202#12 ∧
  decode 0x2300#16 = .call 0x300#12 ∧ decode 0x332A#16 = .seImm 3#4 0x2A#8 ∧ decode 0x9120#16 = .sneReg 1#4 2#4 ∧
  decode 0x8126#16 = .shr 1#4 2#4 ∧ decode 0x812E#16 = .shl 1#4 2#4 ∧ decode 0xC30F#16 = .rnd 3#4 0x0F#8 ∧
  decode 0xD122#16 = .drw 1#4 2#4 2#4 ∧ decode 0xE49E#16 = .skp 4#4 ∧ decode 0xF533#16 = .ldB 5#4 ∧
  decode 0xF50A#16 = .ldVxK 5#4 ∧ decode 0x5121#16 = .unknown 0x5121#16

/-- Group 0 is matched on the whole word (ZERO_GROUP_LOOSE off) and groups 5 and 9 require `n4 = 0`; every other word of
these groups is a no-op (R70, R71). -/
def Obligations.UndefinedGroupWords : Prop :=
  ∀ p : Config.Params,
    (p.zeroGroupLoose = false → decodeWith p 0x00E0#16 = .cls ∧ decodeWith p 0x00EE#16 = .ret ∧
      ∀ nnn : Imm12, nnn ≠ 0x0E0#12 → nnn ≠ 0x0EE#12 →
        decodeWith p (0x0#4 ++ nnn) = .unknown (0x0#4 ++ nnn) ∧
        ∀ s, exec (.unknown (0x0#4 ++ nnn)) s = .next { s with pc := s.pc + 2 }) ∧
    (∀ x y k : Nibble,
      decodeWith p (0x5#4 ++ x ++ y ++ k) = (if k = 0#4 then .seReg x y else .unknown (0x5#4 ++ x ++ y ++ k)) ∧
      decodeWith p (0x9#4 ++ x ++ y ++ k) = (if k = 0#4 then .sneReg x y else .unknown (0x9#4 ++ x ++ y ++ k)))

/-! ### Fetch and tick -/

/-- The fetch reads the two bytes at `PC`, the first high, at any `PC` up to 4094, odd or even; above, the tick ends in
the memory fault and nothing changes (R61, R151). -/
def Obligations.FetchIsBigEndianAndBounded : Prop :=
  (∀ s : State, s.pc.toNat ≤ 4094 →
    ∃ w, fetchWord s = some w ∧
      w.toNat = 256 * (Memory.get s.mem s.pc.toNat).toNat + (Memory.get s.mem (s.pc.toNat + 1)).toNat) ∧
  (∀ s : State, s.pc.toNat > 4094 →
    fetchWord s = none ∧ step s = .fault .memOutOfBounds ∧
      tick s = .ok { result := .faultMemOob, state := s, calls := [] })

/-- A step runs the instruction the bytes at `PC` decode to, and nothing around it (R73). -/
def Obligations.StepRunsDecodedInstruction : Prop :=
  ∀ (s : State) (i : Instr), s.pc.toNat ≤ 4094 → i.wf = true →
    decodeWith s.config (Memory.get s.mem s.pc.toNat ++ Memory.get s.mem (s.pc.toNat + 1)) = i → step s = exec i s

/-- A word placed where the fetch reads is the instruction the next step runs, from any state; registers, stack, timers
and framebuffer are as before (the model's own operation, log 6). -/
def Obligations.PlacedWordRunsNext : Prop :=
  ∀ (s : State) (w : Word),
    step (s.withFetchWord 16 w.toNat) = exec (decodeWith s.config w) (s.withFetchWord 16 w.toNat) ∧
    (s.pc.toNat ≤ 4094 → (s.withFetchWord 16 w.toNat).pc = s.pc) ∧
    Frame { mem := [(s.withFetchWord 16 w.toNat).pc.toNat, (s.withFetchWord 16 w.toNat).pc.toNat + 1] } s
      (s.withFetchWord 16 w.toNat)

/-- The tick: fetch check, decode, the instruction's fatal check, the key poll, then the writes and the port calls
(R73, R167). -/
def Obligations.TickFollowsProcedure : Prop :=
  ∀ s : State,
    (s.pc.toNat > 4094 → tick s = .ok { result := .faultMemOob, state := s, calls := [] }) ∧
    (∀ i : Instr, s.pc.toNat ≤ 4094 →
      decodeWith s.config (Memory.get s.mem s.pc.toNat ++ Memory.get s.mem (s.pc.toNat + 1)) = i →
      (∀ f, fatalCondition i s = some f → tick s = .ok { result := f.tickResult, state := s, calls := [] }) ∧
      (fatalCondition i s = none → ∃ t, exec i s = .next t ∧
        tick s = .ok { result := if waitsForKey i s then .waitKey else .ok, state := t, calls := portCalls i s }))

/-- Overflow, underflow and out-of-bounds are raised by exactly these instructions in exactly these states, and by the
fetch above 4094 (R161 to R163). -/
def Obligations.FatalResultsExactly : Prop :=
  (∀ (i : Instr) (s : State),
    (exec i s = .fault .stackOverflow ↔ (∃ nnn, i = .call nnn) ∧ s.sp = s.config.stackCapacity) ∧
    (exec i s = .fault .stackUnderflow ↔ i = .ret ∧ s.sp = 0) ∧
    (exec i s = .fault .memOutOfBounds ↔
      (∃ x y n, i = .drw x y n ∧ n.toNat ≥ 1 ∧ s.i.toNat + n.toNat - 1 > 4095) ∨
      (∃ x, i = .ldB x ∧ s.i.toNat + 2 > 4095) ∨
      (∃ x, (i = .storeRegs x ∨ i = .loadRegs x) ∧ s.i.toNat + x.toNat > 4095))) ∧
  (∀ (s : State) (f : Fault), step s = .fault f ↔
    (s.pc.toNat > 4094 ∧ f = .memOutOfBounds) ∨
    (s.pc.toNat ≤ 4094 ∧
      exec (decodeWith s.config (Memory.get s.mem s.pc.toNat ++ Memory.get s.mem (s.pc.toNat + 1))) s = .fault f))

/-- Every instruction either completes or is fatal: none is refused (R164). -/
def Obligations.ExecutionIsNeverRefused : Prop :=
  ∀ (i : Instr) (s : State) (r : Refusal), exec i s ≠ .refused r ∧ step s ≠ .refused r

/-- A tick with a fatal result changes no state and calls no port, and ticked again gives the same answer (R166,
R169). -/
def Obligations.FaultsArePrecise : Prop :=
  ∀ (s : State) (o : TickOutput), tick s = .ok o → o.result.isFatal = true →
    o.state = s ∧ o.calls = [] ∧ tick o.state = .ok o

/-! ### Control transfer -/

/-- JP (R81). -/
def Obligations.JumpSetsPc : Prop :=
  ∀ (nnn : Imm12) (s : State),
    decodeWith s.config (0x1#4 ++ nnn) = .jp nnn ∧
    (∃ t, exec (.jp nnn) s = .next t ∧ t.pc.toNat = nnn.toNat ∧ Frame {} s t ∧
      (nnn = 0xFFF#12 → step t = .fault .memOutOfBounds))

/-- CALL (R82), for every STACK_CAPACITY; that the stack has that many slots is `StackShaped`. -/
def Obligations.CallPushesReturnAddress : Prop :=
  ∀ (nnn : Imm12) (s : State),
    decodeWith s.config (0x2#4 ++ nnn) = .call nnn ∧
    (StackShaped s → s.sp < s.config.stackCapacity → ∃ t, exec (.call nnn) s = .next t ∧ t.pc.toNat = nnn.toNat ∧
      t.sp = s.sp + 1 ∧ (∀ k, t.slot k = if k = s.sp then s.pc + 2 else s.slot k) ∧
      t.stack.length = s.stack.length ∧ Frame { stack := true } s t) ∧
    (s.sp = s.config.stackCapacity → exec (.call nnn) s = .fault .stackOverflow)

/-- RET (R83). -/
def Obligations.ReturnPopsIntoPc : Prop :=
  ∀ s : State,
    decodeWith s.config 0x00EE#16 = .ret ∧
    (∀ k : Nat, s.sp = k + 1 →
      ∃ t, exec .ret s = .next t ∧ t.pc = s.slot k ∧ t.sp = k ∧ t.stack = s.stack ∧ Frame { stack := true } s t) ∧
    (s.sp = 0 → exec .ret s = .fault .stackUnderflow)

/-- A call and then a return: `PC` is the address after the call, the stack depth is what it was, and nothing but the
slot the call used differs (R82, R83; source property W4). -/
def Obligations.CallThenReturnComesBack : Prop :=
  ∀ (nnn : Imm12) (s : State), StackShaped s → s.sp < s.config.stackCapacity →
    ∃ t u, exec (.call nnn) s = .next t ∧ exec .ret t = .next u ∧ u.pc = s.pc + 2 ∧ u.sp = s.sp ∧
      u.stack.length = s.stack.length ∧ (∀ k, k ≠ s.sp → u.slot k = s.slot k) ∧
      SameButStaleSlots { s with pc := s.pc + 2 } u ∧ Frame { stack := true } s u

/-- JP V0 (R84): the sum is not reduced, and a sum above 4094 makes the next fetch fault, not the jump. -/
def Obligations.JumpAddsV0 : Prop :=
  ∀ (nnn : Imm12) (s : State),
    decodeWith s.config (0xB#4 ++ nnn) = .jpV0 nnn ∧
    (∃ t, exec (.jpV0 nnn) s = .next t ∧ t.pc.toNat = nnn.toNat + (s.getV 0#4).toNat ∧ Frame {} s t ∧
      (nnn.toNat + (s.getV 0#4).toNat > 4094 → step t = .fault .memOutOfBounds))

/-! ### Conditional skip -/

/-- SE and SNE with an immediate (R90, R91). -/
def Obligations.SkipOnImmediate : Prop :=
  ∀ (x : Nibble) (nn : Byte) (s : State),
    decodeWith s.config (0x3#4 ++ x ++ nn) = .seImm x nn ∧ decodeWith s.config (0x4#4 ++ x ++ nn) = .sneImm x nn ∧
    (∃ t, exec (.seImm x nn) s = .next t ∧
      t.pc = (if s.getV x = nn then s.pc + 4 else s.pc + 2) ∧ Frame {} s t) ∧
    (∃ t, exec (.sneImm x nn) s = .next t ∧
      t.pc = (if s.getV x = nn then s.pc + 2 else s.pc + 4) ∧ Frame {} s t)

/-- SE and SNE of two registers (R92, R93). -/
def Obligations.SkipOnRegisters : Prop :=
  ∀ (x y : Nibble) (s : State),
    decodeWith s.config (0x5#4 ++ x ++ y ++ 0x0#4) = .seReg x y ∧ decodeWith s.config (0x9#4 ++ x ++ y ++ 0x0#4) = .sneReg x y ∧
    (∃ t, exec (.seReg x y) s = .next t ∧
      t.pc = (if s.getV x = s.getV y then s.pc + 4 else s.pc + 2) ∧ Frame {} s t) ∧
    (∃ t, exec (.sneReg x y) s = .next t ∧
      t.pc = (if s.getV x = s.getV y then s.pc + 2 else s.pc + 4) ∧ Frame {} s t)

/-- SKP and SKNP (R94, R95): the key is the low nibble of the register, asked for once, and the skip follows the
answer, whatever it is (a free value, log 1). -/
def Obligations.SkipOnKey : Prop :=
  ∀ (x : Nibble) (s : State),
    decodeWith s.config (0xE#4 ++ x ++ 0x9E#8) = .skp x ∧ decodeWith s.config (0xE#4 ++ x ++ 0xA1#8) = .sknp x ∧
    (let k := (s.getV x).setWidth 4
     let pressed := Config.keyPressed s.portQueries k
     portCalls (.skp x) s = [.keyPressed k pressed] ∧ portCalls (.sknp x) s = [.keyPressed k pressed] ∧
     (∃ t, exec (.skp x) s = .next t ∧ t.pc = (if pressed = true then s.pc + 4 else s.pc + 2) ∧
       t.portQueries = s.portQueries + 1 ∧ Frame { ports := true } s t) ∧
     (∃ t, exec (.sknp x) s = .next t ∧ t.pc = (if pressed = true then s.pc + 2 else s.pc + 4) ∧
       t.portQueries = s.portQueries + 1 ∧ Frame { ports := true } s t))

/-! ### Register load, arithmetic, logic, shift, random -/

/-- LD Vx, nn (R100). -/
def Obligations.LoadImmediateSetsRegister : Prop :=
  ∀ (x : Nibble) (nn : Byte) (s : State),
    decodeWith s.config (0x6#4 ++ x ++ nn) = .ldImm x nn ∧
    ∃ t, exec (.ldImm x nn) s = .next t ∧ t.getV x = nn ∧ t.pc = s.pc + 2 ∧ Frame { regs := [x] } s t

/-- ADD Vx, nn: wraps, no flag (R101). -/
def Obligations.AddImmediateWrapsWithoutFlag : Prop :=
  ∀ (x : Nibble) (nn : Byte) (s : State),
    decodeWith s.config (0x7#4 ++ x ++ nn) = .addImm x nn ∧
    ∃ t, exec (.addImm x nn) s = .next t ∧ (t.getV x).toNat = ((s.getV x).toNat + nn.toNat) % 256 ∧
      (x ≠ 15#4 → t.getV 15#4 = s.getV 15#4) ∧ t.pc = s.pc + 2 ∧ Frame { regs := [x] } s t

/-- LD Vx, Vy (R102). -/
def Obligations.CopyRegisterSetsDestination : Prop :=
  ∀ (x y : Nibble) (s : State),
    decodeWith s.config (0x8#4 ++ x ++ y ++ 0x0#4) = .ldReg x y ∧
    ∃ t, exec (.ldReg x y) s = .next t ∧ t.getV x = s.getV y ∧ t.pc = s.pc + 2 ∧ Frame { regs := [x] } s t

/-- OR, AND, XOR: bit by bit, VF not written (R103 to R105). -/
def Obligations.LogicIsBitwiseWithoutFlag : Prop :=
  ∀ (x y : Nibble) (s : State),
    decodeWith s.config (0x8#4 ++ x ++ y ++ 0x1#4) = .orReg x y ∧ decodeWith s.config (0x8#4 ++ x ++ y ++ 0x2#4) = .andReg x y ∧
    decodeWith s.config (0x8#4 ++ x ++ y ++ 0x3#4) = .xorReg x y ∧
    (∃ t, exec (.orReg x y) s = .next t ∧
      (∀ k, (t.getV x).getLsbD k = ((s.getV x).getLsbD k || (s.getV y).getLsbD k)) ∧
      t.pc = s.pc + 2 ∧ Frame { regs := [x] } s t) ∧
    (∃ t, exec (.andReg x y) s = .next t ∧
      (∀ k, (t.getV x).getLsbD k = ((s.getV x).getLsbD k && (s.getV y).getLsbD k)) ∧
      t.pc = s.pc + 2 ∧ Frame { regs := [x] } s t) ∧
    (∃ t, exec (.xorReg x y) s = .next t ∧
      (∀ k, (t.getV x).getLsbD k = ((s.getV x).getLsbD k ^^ (s.getV y).getLsbD k)) ∧
      t.pc = s.pc + 2 ∧ Frame { regs := [x] } s t)

/-- ADD Vx, Vy: the sum modulo 256, and VF the carry, also when `x` is 15 (R106, R112). -/
def Obligations.AddSetsCarryFlag : Prop :=
  ∀ (x y : Nibble) (s : State),
    decodeWith s.config (0x8#4 ++ x ++ y ++ 0x4#4) = .addReg x y ∧
    (let a := (s.getV x).toNat
     let b := (s.getV y).toNat
     ∃ t, exec (.addReg x y) s = .next t ∧
      (t.getV 15#4).toNat = (if a + b > 255 then 1 else 0) ∧
      (x ≠ 15#4 → (t.getV x).toNat = (a + b) % 256) ∧
      t.pc = s.pc + 2 ∧ Frame { regs := [x, 15#4] } s t)

/-- SUB Vx, Vy: `V[x] - V[y]` modulo 256, and VF = 1 iff no borrow (R107, R112). -/
def Obligations.SubSetsNoBorrowFlag : Prop :=
  ∀ (x y : Nibble) (s : State),
    decodeWith s.config (0x8#4 ++ x ++ y ++ 0x5#4) = .subReg x y ∧
    (let a := (s.getV x).toNat
     let b := (s.getV y).toNat
     ∃ t, exec (.subReg x y) s = .next t ∧
      (t.getV 15#4).toNat = (if a ≥ b then 1 else 0) ∧
      (x ≠ 15#4 → ((t.getV x).toNat : Int) = ((a : Int) - (b : Int)) % 256) ∧
      t.pc = s.pc + 2 ∧ Frame { regs := [x, 15#4] } s t)

/-- SUBN Vx, Vy: `V[y] - V[x]` modulo 256, and VF = 1 iff no borrow (R109, R112). -/
def Obligations.SubnSetsNoBorrowFlag : Prop :=
  ∀ (x y : Nibble) (s : State),
    decodeWith s.config (0x8#4 ++ x ++ y ++ 0x7#4) = .subnReg x y ∧
    (let a := (s.getV x).toNat
     let b := (s.getV y).toNat
     ∃ t, exec (.subnReg x y) s = .next t ∧
      (t.getV 15#4).toNat = (if b ≥ a then 1 else 0) ∧
      (x ≠ 15#4 → ((t.getV x).toNat : Int) = ((b : Int) - (a : Int)) % 256) ∧
      t.pc = s.pc + 2 ∧ Frame { regs := [x, 15#4] } s t)

/-- SHR: half, VF the bit shifted out, `V[y]` neither read nor written (R108, R112); with SHIFT_USES_VY the value
shifted is `V[y]` (D5). -/
def Obligations.ShiftRightSetsFlag : Prop :=
  ∀ (x y : Nibble) (s : State),
    decodeWith s.config (0x8#4 ++ x ++ y ++ 0x6#4) = .shr x y ∧
    (let a := if s.config.shiftUsesVy = true then (s.getV y).toNat else (s.getV x).toNat
     ∃ t, exec (.shr x y) s = .next t ∧
      (t.getV 15#4).toNat = a % 2 ∧
      (x ≠ 15#4 → (t.getV x).toNat = a / 2) ∧
      t.pc = s.pc + 2 ∧ Frame { regs := [x, 15#4] } s t) ∧
    (s.config.shiftUsesVy = false → ∀ z, exec (.shr x z) s = exec (.shr x y) s)

/-- SHL: double modulo 256, VF the bit shifted out, `V[y]` neither read nor written (R110, R112); with SHIFT_USES_VY the
value shifted is `V[y]` (D5). -/
def Obligations.ShiftLeftSetsFlag : Prop :=
  ∀ (x y : Nibble) (s : State),
    decodeWith s.config (0x8#4 ++ x ++ y ++ 0xE#4) = .shl x y ∧
    (let a := if s.config.shiftUsesVy = true then (s.getV y).toNat else (s.getV x).toNat
     ∃ t, exec (.shl x y) s = .next t ∧
      (t.getV 15#4).toNat = a / 128 ∧
      (x ≠ 15#4 → (t.getV x).toNat = a * 2 % 256) ∧
      t.pc = s.pc + 2 ∧ Frame { regs := [x, 15#4] } s t) ∧
    (s.config.shiftUsesVy = false → ∀ z, exec (.shl x z) s = exec (.shl x y) s)

/-- RND: the port's byte, whatever it is (a free value, log 1), AND the mask; asked for once (R111). -/
def Obligations.RandomIsMasked : Prop :=
  ∀ (x : Nibble) (nn : Byte) (s : State),
    decodeWith s.config (0xC#4 ++ x ++ nn) = .rnd x nn ∧
    portCalls (.rnd x nn) s = [.randomByte (Config.randomByte s.portQueries)] ∧
    ∃ t, exec (.rnd x nn) s = .next t ∧ t.getV x = Config.randomByte s.portQueries &&& nn ∧
      t.portQueries = s.portQueries + 1 ∧ t.pc = s.pc + 2 ∧ Frame { regs := [x], ports := true } s t

/-! ### Display -/

/-- CLS (R121). -/
def Obligations.ClearScreenClearsAll : Prop :=
  ∀ s : State, decodeWith s.config 0x00E0#16 = .cls ∧ portCalls .cls s = [.displayClear] ∧
    ∃ t, exec .cls s = .next t ∧ (∀ px py, t.pixel px py = false) ∧ t.pc = s.pc + 2 ∧ Frame { screen := true } s t

/-- DRW: the new framebuffer is the old one XOR the sprite, clipped (with DRAW_WRAPS wrapped, D8), and VF is 1 iff the two meet; with a sprite byte
above 4095 the draw is fatal (R122, R123, R125). -/
def Obligations.DrawXorsSprite : Prop :=
  ∀ (x y n : Nibble) (s : State),
    decodeWith s.config (0xD#4 ++ x ++ y ++ n) = .drw x y n ∧
    (n.toNat = 0 ∨ s.i.toNat + n.toNat - 1 ≤ 4095 → ∃ t, exec (.drw x y n) s = .next t ∧
      (∀ px py, t.pixel px py = (s.pixel px py ^^ spriteCovers s x y n px py)) ∧
      ((∃ px py, spriteCovers s x y n px py = true ∧ s.pixel px py = true) → t.getV 15#4 = 1#8) ∧
      (¬ (∃ px py, spriteCovers s x y n px py = true ∧ s.pixel px py = true) → t.getV 15#4 = 0#8) ∧
      t.pc = s.pc + 2 ∧ Frame { regs := [15#4], screen := true } s t) ∧
    (n.toNat ≥ 1 → s.i.toNat + n.toNat - 1 > 4095 → exec (.drw x y n) s = .fault .memOutOfBounds)

/-- The same sprite drawn twice at the same place restores the framebuffer; the second draw collides iff the sprite has
a 1 bit on a pixel that was clear before the first, so always when it has a 1 bit on a clear screen (R122, R125; R126
as log 5 reads it). The coordinate registers are not VF, which the first draw overwrites. -/
def Obligations.DrawTwiceRestores : Prop :=
  ∀ (x y n : Nibble) (s t : State), x ≠ 15#4 → y ≠ 15#4 → exec (.drw x y n) s = .next t →
    ∃ u, exec (.drw x y n) t = .next u ∧
      (∀ px py, u.pixel px py = s.pixel px py) ∧
      ((∃ px py, spriteCovers s x y n px py = true ∧ s.pixel px py = false) → u.getV 15#4 = 1#8) ∧
      (¬ (∃ px py, spriteCovers s x y n px py = true ∧ s.pixel px py = false) → u.getV 15#4 = 0#8)

/-- The Display calls of a draw: one per toggled pixel, rows ascending and columns ascending, with the pixel's new
value; none for a clipped pixel (R124, R128); with DRAW_WRAPS no pixel is clipped (D8). -/
def Obligations.DrawCallsInOrder : Prop :=
  ∀ (x y n : Nibble) (s : State),
    portCalls (.drw x y n) s =
      (List.range n.toNat).flatMap fun i => (List.range 8).filterMap fun j =>
        let px := if s.config.drawWraps = true then ((s.getV x).toNat % 64 + j) % 64 else (s.getV x).toNat % 64 + j
        let py := if s.config.drawWraps = true then ((s.getV y).toNat % 32 + i) % 32 else (s.getV y).toNat % 32 + i
        if h : px < 64 ∧ py < 32 then
          if (Memory.get s.mem (s.i.toNat + i)).getLsbD (7 - j) = true then
            some (.displayPixel ⟨px, h.1⟩ ⟨py, h.2⟩ (!s.pixel ⟨px, h.1⟩ ⟨py, h.2⟩))
          else none
        else none

/-! ### Index register and memory -/

/-- LD I, nnn (R130). -/
def Obligations.LoadIndexSetsI : Prop :=
  ∀ (nnn : Imm12) (s : State),
    decodeWith s.config (0xA#4 ++ nnn) = .ldI nnn ∧
    ∃ t, exec (.ldI nnn) s = .next t ∧ t.i.toNat = nnn.toNat ∧ t.pc = s.pc + 2 ∧ Frame { i := true } s t

/-- ADD I, Vx: modulo 2^16, VF not written, no fault (R131). -/
def Obligations.AddToIndexWraps : Prop :=
  ∀ (x : Nibble) (s : State),
    decodeWith s.config (0xF#4 ++ x ++ 0x1E#8) = .addIVx x ∧
    ∃ t, exec (.addIVx x) s = .next t ∧ t.i.toNat = (s.i.toNat + (s.getV x).toNat) % 65536 ∧ t.pc = s.pc + 2 ∧
      Frame { i := true } s t

/-- LD F, Vx: the glyph of the low nibble (R132). -/
def Obligations.GlyphAddressOfDigit : Prop :=
  ∀ (x : Nibble) (s : State),
    decodeWith s.config (0xF#4 ++ x ++ 0x29#8) = .ldF x ∧
    ∃ t, exec (.ldF x) s = .next t ∧ t.i.toNat = s.config.fontBase.toNat + 5 * ((s.getV x).toNat % 16) ∧
      t.pc = s.pc + 2 ∧ Frame { i := true } s t

/-- LD B, Vx: hundreds, tens, ones, checked before the first write (R133). -/
def Obligations.DecimalDigitsAtI : Prop :=
  ∀ (x : Nibble) (s : State),
    decodeWith s.config (0xF#4 ++ x ++ 0x33#8) = .ldB x ∧
    (s.i.toNat + 2 ≤ 4095 → ∃ t, exec (.ldB x) s = .next t ∧
      (Memory.get t.mem s.i.toNat).toNat = (s.getV x).toNat / 100 ∧
      (Memory.get t.mem (s.i.toNat + 1)).toNat = (s.getV x).toNat / 10 % 10 ∧
      (Memory.get t.mem (s.i.toNat + 2)).toNat = (s.getV x).toNat % 10 ∧
      t.pc = s.pc + 2 ∧ Frame { mem := [s.i.toNat, s.i.toNat + 1, s.i.toNat + 2] } s t) ∧
    (s.i.toNat + 2 > 4095 → exec (.ldB x) s = .fault .memOutOfBounds)

/-- LD [I], Vx: `V[0]` to `V[x]` inclusive to `I` on, `PC` by 2, checked before the first write (R134). -/
def Obligations.StoreRegistersAtI : Prop :=
  ∀ (x : Nibble) (s : State),
    decodeWith s.config (0xF#4 ++ x ++ 0x55#8) = .storeRegs x ∧
    (s.i.toNat + x.toNat ≤ 4095 → ∃ t, exec (.storeRegs x) s = .next t ∧
      (∀ r : Nibble, r.toNat ≤ x.toNat → Memory.get t.mem (s.i.toNat + r.toNat) = s.getV r) ∧
      t.pc = s.pc + 2 ∧ Frame { mem := (List.range (x.toNat + 1)).map fun k => s.i.toNat + k } s t) ∧
    (s.i.toNat + x.toNat > 4095 → exec (.storeRegs x) s = .fault .memOutOfBounds)

/-- LD Vx, [I]: `V[0]` to `V[x]` inclusive from `I` on, the registers above unchanged, checked first (R135). -/
def Obligations.LoadRegistersFromI : Prop :=
  ∀ (x : Nibble) (s : State),
    decodeWith s.config (0xF#4 ++ x ++ 0x65#8) = .loadRegs x ∧
    (s.i.toNat + x.toNat ≤ 4095 → ∃ t, exec (.loadRegs x) s = .next t ∧
      (∀ r : Nibble, t.getV r =
        if r.toNat ≤ x.toNat then Memory.get s.mem (s.i.toNat + r.toNat) else s.getV r) ∧
      t.pc = s.pc + 2 ∧ Frame { regs := (List.range (x.toNat + 1)).map (BitVec.ofNat 4) } s t) ∧
    (s.i.toNat + x.toNat > 4095 → exec (.loadRegs x) s = .fault .memOutOfBounds)

/-- Registers stored at `I` and loaded from there into any register file are what they were (R134, R135; source
property W5). -/
def Obligations.StoreThenLoadRestores : Prop :=
  ∀ (x : Nibble) (s t u : State), exec (.storeRegs x) s = .next t → u.i = s.i → u.mem = t.mem →
    ∃ w, exec (.loadRegs x) u = .next w ∧
      ∀ r : Nibble, w.getV r = if r.toNat ≤ x.toNat then s.getV r else u.getV r

/-- `I` is left unchanged by the four instructions that access memory through it (R136). -/
def Obligations.IndexSurvivesAccess : Prop :=
  ∀ (x y n : Nibble) (s t : State),
    exec (.ldB x) s = .next t ∨ exec (.storeRegs x) s = .next t ∨ exec (.loadRegs x) s = .next t ∨
      exec (.drw x y n) s = .next t → t.i = s.i

/-- A store into code is what the very next fetch reads, when the `PC` comes to stand on stored bytes (R56, R134). -/
def Obligations.StoreIsSeenByNextFetch : Prop :=
  ∀ (x k : Nibble) (s : State), s.i.toNat + x.toNat ≤ 4095 → k.toNat + 1 ≤ x.toNat →
    (s.pc + 2).toNat = s.i.toNat + k.toNat →
    ∃ t, exec (.storeRegs x) s = .next t ∧ fetchWord t = some (s.getV k ++ s.getV (k + 1))

/-! ### Timers and key-wait -/

/-- LD Vx, DT; LD DT, Vx; LD ST, Vx (R140, R141, R142). -/
def Obligations.TimerMoves : Prop :=
  ∀ (x : Nibble) (s : State),
    decodeWith s.config (0xF#4 ++ x ++ 0x07#8) = .ldVxDT x ∧ decodeWith s.config (0xF#4 ++ x ++ 0x15#8) = .ldDTVx x ∧
    decodeWith s.config (0xF#4 ++ x ++ 0x18#8) = .ldSTVx x ∧
    (∃ t, exec (.ldVxDT x) s = .next t ∧ t.getV x = s.dt ∧ t.pc = s.pc + 2 ∧ Frame { regs := [x] } s t) ∧
    (∃ t, exec (.ldDTVx x) s = .next t ∧ t.dt = s.getV x ∧ t.pc = s.pc + 2 ∧ Frame { dt := true } s t) ∧
    (∃ t, exec (.ldSTVx x) s = .next t ∧ t.st = s.getV x ∧ t.pc = s.pc + 2 ∧ Frame { st := true } s t) ∧
    portCalls (.ldVxDT x) s = [] ∧ portCalls (.ldDTVx x) s = [] ∧ portCalls (.ldSTVx x) s = []

/-- LD Vx, K: one poll a tick; with no key reported nothing changes (but the model's own count of polls, log 1) and the
tick answers WAIT_KEY; with a key reported, whichever it is (a free value), it is written and the tick answers OK
(R143). -/
def Obligations.KeyWaitHoldsUntilKey : Prop :=
  ∀ (x : Nibble) (s : State),
    decodeWith s.config (0xF#4 ++ x ++ 0x0A#8) = .ldVxK x ∧
    ∃ t, exec (.ldVxK x) s = .next t ∧ t.portQueries = s.portQueries + 1 ∧
      (match Config.keyAny s.portQueries with
      | none => t.pc = s.pc ∧ Frame { ports := true } s t
      | some k => (t.getV x).toNat = k.toNat ∧ t.pc = s.pc + 2 ∧ Frame { regs := [x], ports := true } s t) ∧
      (fetchWord s = some (0xF#4 ++ x ++ 0x0A#8) →
        tick s = .ok
          { result := if Config.keyAny s.portQueries = none then .waitKey else .ok
            state := t
            calls := [.keyAny (Config.keyAny s.portQueries)] })

/-! ### Unknown opcodes -/

/-- A word no row matches changes nothing but `PC`, calls no port, and its tick answers OK (R150). -/
def Obligations.UnknownOpcodeOnlyAdvances : Prop :=
  ∀ (w : Word) (s : State), isDefinedWord w = false →
    (s.config.zeroGroupLoose = false → decodeWith s.config w = .unknown w) ∧ portCalls (.unknown w) s = [] ∧
    ∃ t, exec (.unknown w) s = .next t ∧ t.pc = s.pc + 2 ∧ Frame {} s t ∧
      (decodeWith s.config w = .unknown w → fetchWord s = some w → tick s = .ok { result := .ok, state := t, calls := [] })

/-! ### The whole machine -/

/-- No instruction writes anything the access table does not give it (the W entries of R32). -/
def Obligations.WritesStayInAccessTable : Prop :=
  ∀ (i : Instr) (s t : State), exec i s = .next t → Frame (writeSet i s) s t

/-- Every step keeps the memory's canonical form (rising addresses, none above 4095, no listed 0) and the stack's
shape (STACK_CAPACITY slots, `SP` at most that; R22). -/
def Obligations.StepKeepsForms : Prop :=
  ∀ s t : State, step s = .next t →
    (MemoryCanonical s → MemoryCanonical t) ∧ (StackShaped s → StackShaped t)

/-- So does any sequence of ticks and host operations, in any order the host chooses, and none changes the configuration
(R177, R194, R202). -/
def Obligations.SystemKeepsForms : Prop :=
  ∀ (es : List Event) (s t : State), systemRun es s = .next t →
    (MemoryCanonical s → MemoryCanonical t) ∧ (StackShaped s → StackShaped t) ∧ t.config = s.config

/-- Every step keeps `PC` at most 0x10FE and every stack slot at most 4096, so the 16-bit wrap of `PC` is never
exercised (R21). -/
def Obligations.PcNeverReachesWrap : Prop :=
  ∀ s t : State, AddressesBounded s → step s = .next t → AddressesBounded t

/-- The invariants hold after reset, with every configuration. -/
def Obligations.ResetMeetsInvariants : Prop :=
  ∀ p : Config.Params, MemoryCanonical (State.resetWith p) ∧ StackShaped (State.resetWith p) ∧
    AddressesBounded (State.resetWith p)

/-- Every element has its reset value after construction, with every configuration, and after every `Reset` (R31). -/
def Obligations.ResetStateValues : Prop :=
  ∀ (p : Config.Params) (s t : State), t = State.resetWith p ∨ (s.config = p ∧ hostStep .reset s = .next t) →
    (∀ r, t.getV r = 0x00#8) ∧ t.i = 0x0000#16 ∧ t.pc = 0x0200#16 ∧ t.sp = 0 ∧
    t.stack = List.replicate p.stackCapacity 0x0000#16 ∧ t.dt = 0x00#8 ∧ t.st = 0x00#8 ∧
    (∀ px py, t.pixel px py = false) ∧ (∀ a, Memory.get t.mem a = 0x00#8) ∧ t.config = p

/-- `TimerDecrement`: both timers one lower, saturating at 0, and nothing else (R176); no instruction decrements a
timer: but for the two that write them, each timer is as it was. -/
def Obligations.TimerDecrementSaturates : Prop :=
  (∀ s : State, ∃ t, hostStep .timerDecrement s = .next t ∧
    t.dt.toNat = s.dt.toNat - 1 ∧ t.st.toNat = s.st.toNat - 1 ∧ t.pc = s.pc ∧
    Frame { dt := true, st := true } s t) ∧
  (∀ (i : Instr) (s t : State), exec i s = .next t →
    ((∀ x, i ≠ .ldDTVx x) → t.dt = s.dt) ∧ ((∀ x, i ≠ .ldSTVx x) → t.st = s.st))

/-- `LoadProgram` and `LoadFont`: the bytes at 0x200 and at FONT_BASE, glyph by glyph and row by row; nothing else
changes (R196, R197). Outside their contract they, and a `DebugWrite` of an `SP` or a slot number outside its type, are
refused (the model's choice, log 8). -/
def Obligations.LoadsPlaceBytes : Prop :=
  (∀ (bytes : List Byte) (s : State),
    (bytes.length ≤ 3584 → ∃ t, hostStep (.loadProgram bytes) s = .next t ∧
      (∀ (k : Nat) (h : k < bytes.length), Memory.get t.mem (0x200 + k) = bytes[k]) ∧
      t.pc = s.pc ∧ Frame { mem := (List.range bytes.length).map fun k => 0x200 + k } s t) ∧
    (bytes.length > 3584 → hostStep (.loadProgram bytes) s = .refused .programTooLong)) ∧
  (∀ (bytes : List Byte) (s : State),
    (∀ h : bytes.length = 80, s.config.fontBase.toNat + 79 ≤ 4095 →
      ∃ t, hostStep (.loadFont bytes) s = .next t ∧
      (∀ (d r : Nat) (hd : d < 16) (hr : r < 5),
        Memory.get t.mem (s.config.fontBase.toNat + 5 * d + r) = bytes[5 * d + r]) ∧
      t.pc = s.pc ∧ Frame { mem := (List.range 80).map fun k => s.config.fontBase.toNat + k } s t) ∧
    (bytes.length ≠ 80 ∨ s.config.fontBase.toNat + 79 > 4095 →
      hostStep (.loadFont bytes) s = .refused .fontOutsideContract)) ∧
  (∀ (n : Nat) (w : Word) (s : State),
    (n > s.config.stackCapacity → hostStep (.debugWrite (.sp n)) s = .refused .debugWriteOutsideType) ∧
    (n ≥ s.config.stackCapacity → hostStep (.debugWrite (.stack n w)) s = .refused .debugWriteOutsideType))

/-- `DebugWrite` sets the element named to any value of its type, and no other (R201). -/
def Obligations.DebugWriteSetsOneElement : Prop :=
  ∀ s : State,
    (∀ r b, ∃ t, hostStep (.debugWrite (.v r b)) s = .next t ∧ t.getV r = b ∧ t.pc = s.pc ∧
      Frame { regs := [r] } s t) ∧
    (∀ w, ∃ t, hostStep (.debugWrite (.i w)) s = .next t ∧ t.i = w ∧ t.pc = s.pc ∧ Frame { i := true } s t) ∧
    (∀ w, ∃ t, hostStep (.debugWrite (.pc w)) s = .next t ∧ t.pc = w ∧ Frame {} s t) ∧
    (∀ n, n ≤ s.config.stackCapacity → ∃ t, hostStep (.debugWrite (.sp n)) s = .next t ∧ t.sp = n ∧
      t.stack = s.stack ∧ t.pc = s.pc ∧ Frame { stack := true } s t) ∧
    (∀ k w, StackShaped s → k < s.config.stackCapacity → ∃ t, hostStep (.debugWrite (.stack k w)) s = .next t ∧
      t.sp = s.sp ∧ t.pc = s.pc ∧ (∀ j, t.slot j = if j = k then w else s.slot j) ∧
      t.stack.length = s.stack.length ∧ Frame { stack := true } s t) ∧
    (∀ b, ∃ t, hostStep (.debugWrite (.dt b)) s = .next t ∧ t.dt = b ∧ t.pc = s.pc ∧ Frame { dt := true } s t) ∧
    (∀ b, ∃ t, hostStep (.debugWrite (.st b)) s = .next t ∧ t.st = b ∧ t.pc = s.pc ∧ Frame { st := true } s t) ∧
    (∀ x y c, ∃ t, hostStep (.debugWrite (.pixel x y c)) s = .next t ∧ t.pc = s.pc ∧
      (∀ px py, t.pixel px py = if px = x ∧ py = y then c else s.pixel px py) ∧ Frame { screen := true } s t) ∧
    (∀ (a : Imm12) b, ∃ t, hostStep (.debugWrite (.mem a b)) s = .next t ∧ Memory.get t.mem a.toNat = b ∧
      t.pc = s.pc ∧ Frame { mem := [a.toNat] } s t)

/-- Stack slots at or above `SP` have no effect on execution (R23): two states that differ only there run every
instruction to states that differ only there, or to the same fault. -/
def Obligations.StaleSlotsHaveNoEffect : Prop :=
  ∀ (i : Instr) (s t : State), SameButStaleSlots s t →
    match exec i s, exec i t with
    | .next s', .next t' => SameButStaleSlots s' t'
    | .fault f, .fault g => f = g
    | _, _ => False

/-- No instruction reads `ST` (R25): two states that differ only in `ST` run every instruction to states that differ at
most in `ST`, or to the same fault; only `Fx18` writes it. -/
def Obligations.SoundTimerIsNeverRead : Prop :=
  ∀ (i : Instr) (s : State) (b : Byte),
    match exec i s, exec i { s with st := b } with
    | .next s', .next t' => t' = { s' with st := t'.st } ∧ ((∀ x, i ≠ .ldSTVx x) → t'.st = b ∧ s'.st = s.st)
    | .fault f, .fault g => f = g
    | _, _ => False

/-- A jump to itself is a state every further step leaves as it is (R81, R207 (b)). -/
def Obligations.SelfJumpIsFixpoint : Prop := ∀ s : State, SelfJump s → step s = .next s

/-- The parameters of the core after `State.reset` are the spec's defaults (R6; log 2), and the step and the host
operations follow the parameters of the state as the decisions say: the overflow at any capacity and none below it (D1),
the glyphs at any FONT_BASE (D3), the wrapping draw (D8), the loose group 0 (D12). -/
def Obligations.ParametersFollowDecisions : Prop :=
  State.reset = State.resetWith
    { stackCapacity := 16, fontBase := 0x050#12, zeroGroupLoose := false, shiftUsesVy := false, drawWraps := false } ∧
  (∀ (s : State) (nnn : Imm12), fetchWord s = some (0x2#4 ++ nnn) →
    (step s = .fault .stackOverflow ↔ s.sp = s.config.stackCapacity)) ∧
  (∀ (s : State) (x : Nibble), fetchWord s = some (0xF#4 ++ x ++ 0x29#8) →
    ∃ t, step s = .next t ∧ t.i.toNat = s.config.fontBase.toNat + 5 * ((s.getV x).toNat % 16)) ∧
  (∀ (p : Config.Params) (x0 y0 i j : Nat), p.drawWraps = true →
    ∃ q, spritePixel p x0 y0 i j = some q ∧ q.1.val = (x0 + j) % 64 ∧ q.2.val = (y0 + i) % 32) ∧
  (∀ (s : State) (a b : Nibble), s.config.zeroGroupLoose = true →
    (fetchWord s = some (0x0#4 ++ a ++ b ++ 0x0#4) → step s = exec .cls s) ∧
    (fetchWord s = some (0x0#4 ++ a ++ b ++ 0xE#4) → step s = exec .ret s))
end

