-- ==== Sys2Proof/Laws/Decode.lean ====
section
/-! SUPPORT. The fields of the formats of R65: every field of an encoded word is read back. -/

namespace Sys2Proof

section fields
variable (n1 x y n : Nibble) (nn : Byte) (nnn : Imm12) (k : Nat)

theorem getLsbD_formatNNN : (formatNNN n1 nnn).getLsbD k =
    if k < 12 then nnn.getLsbD k else n1.getLsbD (k - 12) := by
  exact (BitVec.getLsbD_append (x := n1) (y := nnn) (i := k)).trans (by simp)

theorem getLsbD_formatXNN : (formatXNN n1 x nn).getLsbD k =
    if k < 8 then nn.getLsbD k else if k - 8 < 4 then x.getLsbD (k - 8) else n1.getLsbD (k - 8 - 4) := by
  have h : (n1 ++ x).getLsbD (k - 8) = if k - 8 < 4 then x.getLsbD (k - 8) else n1.getLsbD (k - 8 - 4) := by
    rw [BitVec.getLsbD_append]
  exact (BitVec.getLsbD_append (x := n1 ++ x) (y := nn) (i := k)).trans (by rw [h])

theorem getLsbD_formatXYN : (formatXYN n1 x y n).getLsbD k =
    if k < 4 then n.getLsbD k else if k - 4 < 4 then y.getLsbD (k - 4)
      else if k - 8 < 4 then x.getLsbD (k - 8) else n1.getLsbD (k - 12) := by
  have h1 : (n1 ++ x).getLsbD (k - 4 - 4) =
      if k - 4 - 4 < 4 then x.getLsbD (k - 4 - 4) else n1.getLsbD (k - 4 - 4 - 4) := by
    rw [BitVec.getLsbD_append]
  have h2 : (n1 ++ x ++ y).getLsbD (k - 4) =
      if k - 4 < 4 then y.getLsbD (k - 4) else (n1 ++ x).getLsbD (k - 4 - 4) := by
    rw [BitVec.getLsbD_append]
  exact (BitVec.getLsbD_append (x := n1 ++ x ++ y) (y := n) (i := k)).trans (by
    rw [h2, h1]; simp [Nat.sub_sub])

@[simp] theorem nibble1_formatNNN : nibble1 (formatNNN n1 nnn) = n1 := by
  apply BitVec.eq_of_getLsbD_eq; intro k hk
  simp [nibble1, getLsbD_formatNNN, hk]

@[simp] theorem addr12_formatNNN : addr12 (formatNNN n1 nnn) = nnn := by
  apply BitVec.eq_of_getLsbD_eq; intro k hk
  simp [addr12, getLsbD_formatNNN, hk]

@[simp] theorem nibble1_formatXNN : nibble1 (formatXNN n1 x nn) = n1 := by
  apply BitVec.eq_of_getLsbD_eq; intro k hk
  have h1 : 12 + k - 8 = 4 + k := by omega
  simp [nibble1, getLsbD_formatXNN, hk, h1]
  omega

@[simp] theorem nibble2_formatXNN : nibble2 (formatXNN n1 x nn) = x := by
  apply BitVec.eq_of_getLsbD_eq; intro k hk
  simp [nibble2, getLsbD_formatXNN, hk]

@[simp] theorem imm8_formatXNN : imm8 (formatXNN n1 x nn) = nn := by
  apply BitVec.eq_of_getLsbD_eq; intro k hk
  simp [imm8, getLsbD_formatXNN, hk]

@[simp] theorem nibble1_formatXYN : nibble1 (formatXYN n1 x y n) = n1 := by
  apply BitVec.eq_of_getLsbD_eq; intro k hk
  have h1 : ¬ 12 + k < 4 := by omega
  have h2 : ¬ 12 + k - 4 < 4 := by omega
  have h3 : ¬ 12 + k - 8 < 4 := by omega
  simp [nibble1, getLsbD_formatXYN, hk, h1, h2, h3]

@[simp] theorem nibble2_formatXYN : nibble2 (formatXYN n1 x y n) = x := by
  apply BitVec.eq_of_getLsbD_eq; intro k hk
  have h1 : ¬ 8 + k < 4 := by omega
  have h2 : ¬ 8 + k - 4 < 4 := by omega
  simp [nibble2, getLsbD_formatXYN, hk, h1, h2]

@[simp] theorem nibble3_formatXYN : nibble3 (formatXYN n1 x y n) = y := by
  apply BitVec.eq_of_getLsbD_eq; intro k hk
  simp [nibble3, getLsbD_formatXYN, hk]

@[simp] theorem nibble4_formatXYN : nibble4 (formatXYN n1 x y n) = n := by
  apply BitVec.eq_of_getLsbD_eq; intro k hk
  simp [nibble4, getLsbD_formatXYN, hk]

end fields

end Sys2Proof
end

