-- ==== Sys2Proof/Laws/Memory.lean ====
section
/-! SUPPORT. The laws of `MEM`: a read after a write, and every memory operation keeps the canonical form. -/

namespace Sys2Proof.Machine

@[simp] theorem memory_get_nil (a : Nat) : Memory.get [] a = 0#8 := rfl

/-- One listed byte more. -/
theorem memory_get_cons (d k : Nat) (w : Byte) (m : Memory) :
    Memory.get ((d, w) :: m) k = if k = d then w else Memory.get m k := by
  by_cases h : d = k
  · simp [Memory.get, h]
  · simp [Memory.get, h, Ne.symm h]

theorem memory_get_insert (m : Memory) (a k : Nat) (b : Byte) (h : ∀ c ∈ m, c.1 ≠ a) :
    Memory.get (Memory.insert m a b) k = if k = a then b else Memory.get m k := by
  induction m with
  | nil => rw [Memory.insert, memory_get_cons]
  | cons c m ih =>
    obtain ⟨d, w⟩ := c
    have hd : d ≠ a := h (d, w) (by simp)
    have ih := ih fun c hc => h c (by simp [hc])
    unfold Memory.insert
    split
    · simp only [memory_get_cons]
    · simp only [memory_get_cons, ih]
      by_cases hk : k = a
      · subst hk; simp [Ne.symm hd]
      · simp [hk]

theorem memory_get_filter (m : Memory) (a k : Nat) :
    Memory.get (m.filter fun c => c.1 != a) k = if k = a then 0#8 else Memory.get m k := by
  induction m with
  | nil => simp
  | cons c m ih =>
    obtain ⟨d, w⟩ := c
    rw [List.filter_cons]
    by_cases hd : d = a
    · subst hd
      simp only [bne_self_eq_false, Bool.false_eq_true, if_false, ih, memory_get_cons]
      split <;> rfl
    · simp only [bne_iff_ne, ne_eq, hd, not_false_eq_true, if_true, memory_get_cons, ih]
      by_cases hk : k = a
      · subst hk; simp [Ne.symm hd]
      · simp [hk]

/-- A read after a write gives the value written at that address, and what stood before at every other. -/
@[simp] theorem memory_get_set (m : Memory) (a k : Nat) (b : Byte) :
    Memory.get (Memory.set m a b) k = if k = a then b else Memory.get m k := by
  unfold Memory.set
  by_cases hb : b = 0#8
  · simp [hb, memory_get_filter]
  · simp only [hb, if_false]
    rw [memory_get_insert _ _ _ _ (by simp), memory_get_filter]
    split <;> simp_all

/-- A read after a block write: the byte of the list inside the block, what stood before outside it (R45). -/
theorem memory_get_setBlock (bs : List Byte) : ∀ (m : Memory) (a k : Nat),
    Memory.get (Memory.setBlock m a bs) k =
      if h : a ≤ k ∧ k - a < bs.length then bs[k - a] else Memory.get m k := by
  induction bs with
  | nil => intro m a k; simp [Memory.setBlock]
  | cons b bs ih =>
    intro m a k
    rw [Memory.setBlock, ih, memory_get_set]
    by_cases hk : k = a
    · subst hk; simp
    · by_cases h1 : a ≤ k
      · have h2 : a + 1 ≤ k := by omega
        have h3 : k - a = (k - (a + 1)) + 1 := by omega
        by_cases h4 : k - (a + 1) < bs.length
        · simp only [h1, h2, h3, h4, List.length_cons, List.getElem_cons_succ, and_self,
            Nat.add_lt_add_iff_right, dif_pos]
        · simp [h1, h2, h3, h4, hk]
      · have h2 : ¬ a + 1 ≤ k := by omega
        simp [h1, h2, hk]

/-- A byte outside the block written reads as before. -/
theorem memory_get_setBlock_outside (bs : List Byte) (m : Memory) (a k : Nat) (h : k < a ∨ a + bs.length ≤ k) :
    Memory.get (Memory.setBlock m a bs) k = Memory.get m k := by
  rw [memory_get_setBlock, dif_neg]
  omega

@[simp] theorem length_getBlock (m : Memory) (a n : Nat) : (Memory.getBlock m a n).length = n := by
  simp [Memory.getBlock]

@[simp] theorem getElem_getBlock (m : Memory) (a n k : Nat) (h : k < (Memory.getBlock m a n).length) :
    (Memory.getBlock m a n)[k] = Memory.get m (a + k) := by
  simp [Memory.getBlock]

@[simp] theorem length_decimalDigits (b : Byte) : (decimalDigits b).length = 3 := rfl

@[simp] theorem length_registersTo (s : State) (x : Nibble) : (s.registersTo x).length = x.toNat + 1 := by
  simp [State.registersTo]

@[simp] theorem getElem_registersTo (s : State) (x : Nibble) (k : Nat) (h : k < (s.registersTo x).length) :
    (s.registersTo x)[k] = s.getV (BitVec.ofNat 4 k) := by
  simp [State.registersTo]

/-! ### The canonical form -/

theorem memory_wf_nil : Memory.wf [] := ⟨List.Pairwise.nil, by simp⟩

theorem memory_wf_filter (m : Memory) (q : Host.Cell → Bool) (h : Memory.wf m) : Memory.wf (m.filter q) :=
  ⟨h.1.filter q, fun c hc => h.2 c (List.mem_of_mem_filter hc)⟩

theorem mem_insert (m : Memory) (a : Nat) (b : Byte) (c : Host.Cell) (h : c ∈ Memory.insert m a b) :
    c = (a, b) ∨ c ∈ m := by
  induction m with
  | nil => simpa [Memory.insert] using h
  | cons d m ih =>
    obtain ⟨d, w⟩ := d
    unfold Memory.insert at h
    split at h
    · simpa using h
    · rcases List.mem_cons.1 h with rfl | h
      · simp
      · rcases ih h with rfl | h <;> simp [*]

theorem memory_wf_insert (m : Memory) (a : Nat) (b : Byte) (h : Memory.wf m) (hn : ∀ c ∈ m, c.1 ≠ a)
    (ha : a ≤ Config.lastAddress) (hb : b ≠ 0#8) : Memory.wf (Memory.insert m a b) := by
  refine ⟨?_, fun c hc => ?_⟩
  · have hp := h.1
    clear h
    induction m with
    | nil => simp [Memory.insert]
    | cons d m ih =>
      obtain ⟨d, w⟩ := d
      have hd : d ≠ a := hn (d, w) (by simp)
      rw [List.pairwise_cons] at hp
      unfold Memory.insert
      split
      · rename_i hlt
        refine List.pairwise_cons.2 ⟨fun c hc => ?_, List.pairwise_cons.2 hp⟩
        rcases List.mem_cons.1 hc with rfl | hc
        · exact hlt
        · exact Nat.lt_trans hlt (hp.1 c hc)
      · refine List.pairwise_cons.2 ⟨fun c hc => ?_, ih (fun c hc => hn c (by simp [hc])) hp.2⟩
        rcases mem_insert m a b c hc with rfl | hc
        · simp only; omega
        · exact hp.1 c hc
  · rcases mem_insert m a b c hc with rfl | hc
    · exact ⟨ha, hb⟩
    · exact h.2 c hc

/-- A write to an address of `MEM` keeps the canonical form. -/
theorem memory_wf_set (m : Memory) (a : Nat) (b : Byte) (h : Memory.wf m) (ha : a ≤ Config.lastAddress) :
    Memory.wf (Memory.set m a b) := by
  unfold Memory.set
  by_cases hb : b = 0#8
  · simpa [hb] using memory_wf_filter m _ h
  · simp only [hb, if_false]
    exact memory_wf_insert _ a b (memory_wf_filter m _ h) (by simp) ha hb

/-- A block write inside `MEM` keeps the canonical form. -/
theorem memory_wf_setBlock (bs : List Byte) : ∀ (m : Memory) (a : Nat), Memory.wf m →
    a + bs.length ≤ Config.lastAddress + 1 → Memory.wf (Memory.setBlock m a bs) := by
  induction bs with
  | nil => intro m a h _; exact h
  | cons b bs ih =>
    intro m a h hb
    simp only [List.length_cons] at hb
    exact ih _ _ (memory_wf_set m a b h (by omega)) (by omega)

theorem reset_memory_wf : Memory.wf State.reset.mem := memory_wf_nil

end Sys2Proof.Machine
end

