-- ==== Sys2Proof/Laws/Draw.lean ====
section
/-! SUPPORT. The sprite draw (R122 to R125, R128): one pixel, one bit, one row, all rows, the instruction; clipped or
wrapped. -/

namespace Sys2Proof.Machine

/-- A toggle turns one pixel over and leaves every other (R122). -/
theorem pixel_toggle (fb : Screen) (x px : Fin 64) (y py : Fin 32) :
    Screen.pixel (Screen.toggle fb x y) px py =
      if px = x ∧ py = y then !Screen.pixel fb px py else Screen.pixel fb px py := by
  unfold Screen.pixel Screen.toggle
  by_cases hy : py = y
  · subst hy
    by_cases hx : px = x
    · subst hx; simp
    · have h1 : px.val ≠ x.val := fun e => hx (Fin.ext e)
      by_cases h2 : px.val < x.val
      · simp [hx, h2]
      · have h3 : px.val - x.val ≠ 0 := by omega
        simp [hx, h3]
  · have h1 : y.val ≠ py.val := fun e => hy (Fin.ext e.symm)
    simp [hy, Vector.getElem_set_ne, h1]

/-- A cleared screen has no pixel set (R121). -/
@[simp] theorem pixel_clear (x : Fin 64) (y : Fin 32) : Screen.pixel Screen.clear x y = false := by
  simp [Screen.pixel, Screen.clear]

/-- A pixel set by hand, and every other as before (R201). -/
theorem pixel_setPixel (fb : Screen) (x px : Fin 64) (y py : Fin 32) (c : Bool) :
    Screen.pixel (Screen.setPixel fb x y c) px py = if px = x ∧ py = y then c else Screen.pixel fb px py := by
  unfold Screen.setPixel
  split
  · rename_i h
    split
    · rename_i e; rw [e.1, e.2, h]
    · rfl
  · rename_i h
    rw [pixel_toggle]
    split
    · rename_i e; rw [e.1, e.2]; revert h; cases Screen.pixel fb x y <;> cases c <;> simp
    · rfl

/-- A bit of the first `m` columns of the row `b` at row `i` is 1 and lands on this pixel (R122, R124). -/
abbrev RowCovers (p : Config.Params) (x0 y0 i m : Nat) (b : Byte) (px : Fin 64) (py : Fin 32) : Prop :=
  ∃ j, j < m ∧ b.getLsbD (7 - j) = true ∧ spritePixel p x0 y0 i j = some (px, py)

/-- The Display calls of the first `m` columns of a row, over the screen before the draw (R128). -/
def rowCalls (p : Config.Params) (fb : Screen) (x0 y0 i m : Nat) (b : Byte) : List PortCall :=
  (List.range m).filterMap fun j =>
    if b.getLsbD (7 - j) = true then
      (spritePixel p x0 y0 i j).map fun q => .displayPixel q.1 q.2 (!Screen.pixel fb q.1 q.2)
    else none

/-- What the first `m` columns of a row have done to a drawing. -/
structure RowDone (p : Config.Params) (x0 y0 i m : Nat) (b : Byte) (d e : Drawing) : Prop where
  covered : ∀ px py, RowCovers p x0 y0 i m b px py → Screen.pixel e.fb px py = !Screen.pixel d.fb px py
  uncovered : ∀ px py, ¬ RowCovers p x0 y0 i m b px py → Screen.pixel e.fb px py = Screen.pixel d.fb px py
  collision : e.collision = true ↔
    d.collision = true ∨ ∃ px py, RowCovers p x0 y0 i m b px py ∧ Screen.pixel d.fb px py = true
  calls : e.calls = d.calls ++ rowCalls p d.fb x0 y0 i m b

/-- Distinct bits of a sprite land on distinct pixels, clipped or wrapped (R125). -/
theorem spritePixel_injective (p : Config.Params) (x0 y0 i j k l : Nat) (q : Fin 64 × Fin 32)
    (h1 : spritePixel p x0 y0 i j = some q) (h2 : spritePixel p x0 y0 k l = some q)
    (hi : i < 32) (hk : k < 32) (hj : j < 64) (hl : l < 64) : i = k ∧ j = l := by
  obtain ⟨qx, qy⟩ := q
  unfold spritePixel at h1 h2
  split at h1
  · rw [if_pos ‹_›] at h2
    simp only [Option.some.injEq, Prod.mk.injEq, Fin.ext_iff, Fin.val_ofNat] at h1 h2
    omega
  · rw [if_neg ‹_›] at h2
    split at h1 <;> split at h2 <;> simp only [Option.some.injEq, Prod.mk.injEq, Fin.ext_iff, reduceCtorEq] at h1 h2
    omega

/-- Clipped or wrapped, the pixel a sprite bit lands on has the bit's offset from the origin (R124, D8). -/
theorem spritePixel_iff (p : Config.Params) (x0 y0 i j : Nat) (px : Fin 64) (py : Fin 32)
    (hx : x0 < 64) (hy : y0 < 32) (hi : i < 32) (hj : j < 64) :
    spritePixel p x0 y0 i j = some (px, py) ↔
      offsetFromOrigin p.drawWraps 64 x0 px.val = some j ∧ offsetFromOrigin p.drawWraps 32 y0 py.val = some i := by
  have := px.isLt
  have := py.isLt
  unfold spritePixel offsetFromOrigin
  split
  · simp only [Option.some.injEq, Prod.mk.injEq, Fin.ext_iff, Fin.val_ofNat]
    omega
  · split <;> split <;> split <;> simp [Fin.ext_iff] <;> omega

theorem rowDone_zero (p : Config.Params) (x0 y0 i : Nat) (b : Byte) (d : Drawing) : RowDone p x0 y0 i 0 b d d := by
  have h : ∀ px py, ¬ RowCovers p x0 y0 i 0 b px py := by rintro px py ⟨j, hj, _⟩; omega
  exact ⟨fun px py hc => absurd hc (h px py), fun _ _ _ => rfl, by simp [h], by simp [rowCalls]⟩

/-- One more column. -/
theorem rowDone_succ (p : Config.Params) (x0 y0 i m : Nat) (b : Byte) (d e : Drawing) (hi : i < 32) (hm : m < 64)
    (h : RowDone p x0 y0 i m b d e) :
    RowDone p x0 y0 i (m + 1) b d (Drawing.plot p x0 y0 i m (b.getLsbD (7 - m)) e) := by
  have hc : ∀ px py, RowCovers p x0 y0 i (m + 1) b px py ↔
      RowCovers p x0 y0 i m b px py ∨ (b.getLsbD (7 - m) = true ∧ spritePixel p x0 y0 i m = some (px, py)) := by
    intro px py
    constructor
    · rintro ⟨j, hj, hb, hs⟩
      by_cases e : j = m
      · subst e; exact .inr ⟨hb, hs⟩
      · exact .inl ⟨j, by omega, hb, hs⟩
    · rintro (⟨j, hj, hb, hs⟩ | ⟨hb, hs⟩)
      · exact ⟨j, by omega, hb, hs⟩
      · exact ⟨m, by omega, hb, hs⟩
  by_cases hb : b.getLsbD (7 - m) = true ∧ ∃ q, spritePixel p x0 y0 i m = some q
  case neg =>
    have hn : ∀ px py, ¬ (b.getLsbD (7 - m) = true ∧ spritePixel p x0 y0 i m = some (px, py)) :=
      fun px py hs => hb ⟨hs.1, _, hs.2⟩
    have he : Drawing.plot p x0 y0 i m (b.getLsbD (7 - m)) e = e := by
      unfold Drawing.plot
      split
      · rename_i h1 h2; exact absurd ⟨h1, _, h2⟩ hb
      · rfl
      · rfl
    have hr : rowCalls p d.fb x0 y0 i (m + 1) b = rowCalls p d.fb x0 y0 i m b := by
      simp only [rowCalls, List.range_succ, List.filterMap_append, List.filterMap_cons, List.filterMap_nil]
      split
      · simp
      · rename_i h1
        split at h1
        · rename_i h2
          cases h3 : spritePixel p x0 y0 i m with
          | none => simp [h3] at h1
          | some q => exact absurd ⟨h2, q, h3⟩ hb
        · cases h1
    rw [he]
    refine ⟨fun px py hp => ?_, fun px py hp => ?_, ?_, by rw [hr]; exact h.calls⟩
    · exact h.covered px py (((hc px py).1 hp).resolve_right (hn px py))
    · exact h.uncovered px py fun h1 => hp ((hc px py).2 (.inl h1))
    · simp only [hc, hn, or_false]; exact h.collision
  case pos =>
    obtain ⟨hb, ⟨qx, qy⟩, hs⟩ := hb
    have hn : ¬ RowCovers p x0 y0 i m b qx qy := by
      rintro ⟨j, hj, _, h1⟩
      have := (spritePixel_injective p x0 y0 i j i m _ h1 hs hi hi (by omega) hm).2
      omega
    have hold : Screen.pixel e.fb qx qy = Screen.pixel d.fb qx qy := h.uncovered qx qy hn
    have hq : ∀ px py, spritePixel p x0 y0 i m = some (px, py) ↔ px = qx ∧ py = qy := by
      intro px py; rw [hs]; simp [eq_comm]
    simp only [hb, hq, true_and] at hc
    rw [hb]
    refine ⟨fun px py hp => ?_, fun px py hp => ?_, ?_, ?_⟩
    · simp only [Drawing.plot, hs, pixel_toggle]
      by_cases he : px = qx ∧ py = qy
      · rw [if_pos he, he.1, he.2, hold]
      · rw [if_neg he]; exact h.covered px py (((hc px py).1 hp).resolve_right he)
    · rw [hc, not_or] at hp
      simp only [Drawing.plot, hs, pixel_toggle, if_neg hp.2]
      exact h.uncovered px py hp.1
    · simp only [Drawing.plot, hs, hc, Bool.or_eq_true, h.collision, hold]
      constructor
      · rintro ((h1 | ⟨px, py, h1, h2⟩) | h1)
        · exact .inl h1
        · exact .inr ⟨px, py, .inl h1, h2⟩
        · exact .inr ⟨_, _, .inr ⟨rfl, rfl⟩, h1⟩
      · rintro (h1 | ⟨px, py, h1 | ⟨rfl, rfl⟩, h2⟩)
        · exact .inl (.inl h1)
        · exact .inl (.inr ⟨px, py, h1, h2⟩)
        · exact .inr h2
    · simp only [Drawing.plot, hs, hold]
      rw [h.calls]
      simp [rowCalls, List.range_succ, hs, hb]

/-- Everything one row does (R122, R124, R125, R128). -/
theorem row_spec (p : Config.Params) (x0 y0 i : Nat) (b : Byte) (d : Drawing) (hi : i < 32) :
    RowDone p x0 y0 i 8 b d (Drawing.row p x0 y0 i b d) := by
  have key : ∀ m, m ≤ 8 → RowDone p x0 y0 i m b d
      ((List.range m).foldl (fun d j => Drawing.plot p x0 y0 i j (b.getLsbD (7 - j)) d) d) := by
    intro m
    induction m with
    | zero => exact fun _ => rowDone_zero p x0 y0 i b d
    | succ m ih =>
      intro hm
      rw [List.range_succ, List.foldl_append]
      exact rowDone_succ p x0 y0 i m b d _ hi (by omega) (ih (by omega))
  exact key 8 (by omega)

/-- A 1 bit of the rows from row `i` on lands on this pixel (R124). -/
abbrev RowsCover (p : Config.Params) (x0 y0 i : Nat) (bs : List Byte) (px : Fin 64) (py : Fin 32) : Prop :=
  ∃ k, k < bs.length ∧ RowCovers p x0 y0 (i + k) 8 (bs.getD k 0#8) px py

theorem rowsCover_cons (p : Config.Params) (x0 y0 i : Nat) (b : Byte) (bs : List Byte) (px : Fin 64) (py : Fin 32) :
    RowsCover p x0 y0 i (b :: bs) px py ↔
      RowCovers p x0 y0 i 8 b px py ∨ RowsCover p x0 y0 (i + 1) bs px py := by
  constructor
  · rintro ⟨k, hk, h⟩
    cases k with
    | zero => exact .inl h
    | succ k => exact .inr ⟨k, by simpa using hk, by rw [Nat.add_right_comm]; exact h⟩
  · rintro (h | ⟨k, hk, h⟩)
    · exact ⟨0, by simp, h⟩
    · exact ⟨k + 1, by simpa using hk, by rw [← Nat.add_assoc, Nat.add_right_comm]; exact h⟩

/-- Everything the rows of a sprite do (R122, R124, R125, R128). -/
structure RowsDone (p : Config.Params) (x0 y0 i : Nat) (bs : List Byte) (d e : Drawing) : Prop where
  covered : ∀ px py, RowsCover p x0 y0 i bs px py → Screen.pixel e.fb px py = !Screen.pixel d.fb px py
  uncovered : ∀ px py, ¬ RowsCover p x0 y0 i bs px py → Screen.pixel e.fb px py = Screen.pixel d.fb px py
  collision : e.collision = true ↔
    d.collision = true ∨ ∃ px py, RowsCover p x0 y0 i bs px py ∧ Screen.pixel d.fb px py = true
  calls : e.calls = d.calls ++ (List.range bs.length).flatMap fun k =>
    rowCalls p d.fb x0 y0 (i + k) 8 (bs.getD k 0#8)

/-- The Display calls of a row are the same over two screens that agree on the pixels of the row. -/
theorem rowCalls_congr (p : Config.Params) (fb fc : Screen) (x0 y0 i m : Nat) (b : Byte)
    (h : ∀ px py, RowCovers p x0 y0 i m b px py → Screen.pixel fb px py = Screen.pixel fc px py) :
    rowCalls p fb x0 y0 i m b = rowCalls p fc x0 y0 i m b := by
  apply List.filterMap_congr
  intro j hj
  split
  · rename_i hb
    cases hs : spritePixel p x0 y0 i j with
    | none => rfl
    | some q => simp [h q.1 q.2 ⟨j, List.mem_range.1 hj, hb, hs⟩]
  · rfl

theorem rows_spec (p : Config.Params) (x0 y0 : Nat) : ∀ (bs : List Byte) (i : Nat) (d : Drawing),
    i + bs.length ≤ 32 → RowsDone p x0 y0 i bs d (Drawing.rows p x0 y0 i bs d) := by
  intro bs
  induction bs with
  | nil =>
    intro i d _
    have h : ∀ px py, ¬ RowsCover p x0 y0 i [] px py := by rintro px py ⟨k, hk, _⟩; simp at hk
    exact ⟨fun px py hc => absurd hc (h px py), fun _ _ _ => rfl, by simp [h, Drawing.rows], by simp [Drawing.rows]⟩
  | cons b bs ih =>
    intro i d hl
    simp only [List.length_cons] at hl
    have hr := row_spec p x0 y0 i b d (by omega)
    have hs := ih (i + 1) (Drawing.row p x0 y0 i b d) (by omega)
    have hd : ∀ px py, RowsCover p x0 y0 (i + 1) bs px py → ¬ RowCovers p x0 y0 i 8 b px py := by
      rintro px py ⟨k, hk, j, hj, _, h1⟩ ⟨l, hl, _, h2⟩
      have := (spritePixel_injective p x0 y0 _ j i l _ h1 h2 (by omega) (by omega) (by omega) (by omega)).1
      omega
    refine ⟨fun px py hc => ?_, fun px py hc => ?_, ?_, ?_⟩
    · rw [Drawing.rows]
      rcases (rowsCover_cons ..).1 hc with h | h
      · rw [hs.uncovered px py fun h2 => hd px py h2 h, hr.covered px py h]
      · rw [hs.covered px py h, hr.uncovered px py (hd px py h)]
    · rw [rowsCover_cons, not_or] at hc
      rw [Drawing.rows, hs.uncovered px py hc.2, hr.uncovered px py hc.1]
    · rw [Drawing.rows, hs.collision, hr.collision]
      simp only [rowsCover_cons]
      constructor
      · rintro ((h1 | ⟨px, py, h1, h2⟩) | ⟨px, py, h1, h2⟩)
        · exact .inl h1
        · exact .inr ⟨px, py, .inl h1, h2⟩
        · exact .inr ⟨px, py, .inr h1, by rw [← hr.uncovered px py (hd px py h1)]; exact h2⟩
      · rintro (h1 | ⟨px, py, h1 | h1, h2⟩)
        · exact .inl (.inl h1)
        · exact .inl (.inr ⟨px, py, h1, h2⟩)
        · exact .inr ⟨px, py, h1, by rw [hr.uncovered px py (hd px py h1)]; exact h2⟩
    · rw [Drawing.rows, hs.calls, hr.calls, List.append_assoc, List.length_cons, List.range_succ_eq_map,
        List.flatMap_cons, List.flatMap_map]
      congr 2
      apply List.flatMap_congr
      intro k hk
      have hk := List.mem_range.1 hk
      rw [show i + 1 + k = i + k.succ by omega]
      exact rowCalls_congr _ _ _ _ _ _ _ _ fun px py hc =>
        hr.uncovered px py (hd px py ⟨k, hk, by rw [show i + 1 + k = i + k.succ by omega]; exact hc⟩)

/-- Which pixels the rows of `Dxyn` cover, in closed form (R123, R124, R125). -/
theorem rowsCover_spriteRows (s : State) (x y n : Nibble) (px : Fin 64) (py : Fin 32) :
    RowsCover s.config (s.originColumn x) (s.originRow y) 0 (s.spriteRows n) px py ↔
      spriteCovers s x y n px py = true := by
  have hn := n.isLt
  have hx : s.originColumn x < 64 := Nat.mod_lt _ (by omega)
  have hy : s.originRow y < 32 := Nat.mod_lt _ (by omega)
  have hlen : (s.spriteRows n).length = n.toNat := length_getBlock ..
  have hget : ∀ k, k < n.toNat → (s.spriteRows n).getD k 0#8 = Memory.get s.mem (s.i.toNat + k) := by
    intro k hk
    rw [List.getD_eq_getElem _ _ (by omega)]
    exact getElem_getBlock ..
  unfold spriteCovers
  constructor
  · rintro ⟨k, hk, j, hj, hb, hs⟩
    rw [Nat.zero_add, spritePixel_iff _ _ _ _ _ _ _ hx hy (by omega) (by omega)] at hs
    rw [hget k (by omega)] at hb
    simp only [State.originColumn, State.originRow] at hs
    rw [hs.1, hs.2]
    simp only [Bool.and_eq_true, decide_eq_true_eq]
    exact ⟨⟨hj, by omega⟩, hb⟩
  · intro h
    split at h
    · rename_i j k h1 h2
      simp only [Bool.and_eq_true, decide_eq_true_eq] at h
      refine ⟨k, by omega, j, h.1.1, by rw [hget k h.1.2]; exact h.2, ?_⟩
      rw [Nat.zero_add, spritePixel_iff _ _ _ _ _ _ _ hx hy (by omega) (by omega)]
      exact ⟨h1, h2⟩
    · cases h
    · cases h

/-- Everything `Dxyn` draws (R122 to R125, R128). -/
theorem drawing_spec (s : State) (x y n : Nibble) :
    (∀ px py, Screen.pixel (s.drawing x y n).fb px py = (s.pixel px py ^^ spriteCovers s x y n px py)) ∧
    ((s.drawing x y n).collision = true ↔
      ∃ px py, spriteCovers s x y n px py = true ∧ s.pixel px py = true) ∧
    (s.drawing x y n).calls = (List.range n.toNat).flatMap fun k =>
      rowCalls s.config s.fb (s.originColumn x) (s.originRow y) k 8 (Memory.get s.mem (s.i.toNat + k)) := by
  have hn := n.isLt
  have hlen : (s.spriteRows n).length = n.toNat := length_getBlock ..
  have h := rows_spec s.config (s.originColumn x) (s.originRow y) (s.spriteRows n) 0
    { fb := s.fb, collision := false, calls := [] } (by omega)
  refine ⟨fun px py => ?_, ?_, ?_⟩
  · cases hc : spriteCovers s x y n px py with
    | true => rw [State.drawing, h.covered px py ((rowsCover_spriteRows ..).2 hc)]; simp [State.pixel]
    | false =>
      rw [State.drawing, h.uncovered px py fun h1 => by rw [(rowsCover_spriteRows ..).1 h1] at hc; cases hc]
      simp [State.pixel]
  · rw [State.drawing, h.collision]
    simp [rowsCover_spriteRows, State.pixel]
  · rw [State.drawing, h.calls, List.nil_append, hlen]
    apply List.flatMap_congr
    intro k hk
    rw [Nat.zero_add, List.getD_eq_getElem _ _ (by have := List.mem_range.1 hk; omega)]
    exact congrArg _ (getElem_getBlock ..)

end Sys2Proof.Machine
end

