-- ==== Sys2Proof/Laws/State.lean ====
section
/-! SUPPORT. One lemma per field per update of `State`, true by unfolding, and the read-after-write laws of the register
file. -/

namespace Sys2Proof.Machine

section setV
variable (s : State) (r : Nibble) (b : Byte)
@[simp] theorem setV_i : (s.setV r b).i = s.i := rfl
@[simp] theorem setV_pc : (s.setV r b).pc = s.pc := rfl
@[simp] theorem setV_sp : (s.setV r b).sp = s.sp := rfl
@[simp] theorem setV_stack : (s.setV r b).stack = s.stack := rfl
@[simp] theorem setV_dt : (s.setV r b).dt = s.dt := rfl
@[simp] theorem setV_st : (s.setV r b).st = s.st := rfl
@[simp] theorem setV_fb : (s.setV r b).fb = s.fb := rfl
@[simp] theorem setV_mem : (s.setV r b).mem = s.mem := rfl
@[simp] theorem setV_portQueries : (s.setV r b).portQueries = s.portQueries := rfl
@[simp] theorem setV_config : (s.setV r b).config = s.config := rfl
@[simp] theorem setV_pixel (x : Fin 64) (y : Fin 32) : (s.setV r b).pixel x y = s.pixel x y := rfl
end setV

section advance
variable (s : State)
@[simp] theorem advance_v : s.advance.v = s.v := rfl
@[simp] theorem advance_getV (r : Nibble) : s.advance.getV r = s.getV r := rfl
@[simp] theorem advance_i : s.advance.i = s.i := rfl
@[simp] theorem advance_pc : s.advance.pc = s.pc + 2 := rfl
@[simp] theorem advance_sp : s.advance.sp = s.sp := rfl
@[simp] theorem advance_stack : s.advance.stack = s.stack := rfl
@[simp] theorem advance_dt : s.advance.dt = s.dt := rfl
@[simp] theorem advance_st : s.advance.st = s.st := rfl
@[simp] theorem advance_fb : s.advance.fb = s.fb := rfl
@[simp] theorem advance_mem : s.advance.mem = s.mem := rfl
@[simp] theorem advance_portQueries : s.advance.portQueries = s.portQueries := rfl
@[simp] theorem advance_config : s.advance.config = s.config := rfl
@[simp] theorem advance_pixel (x : Fin 64) (y : Fin 32) : s.advance.pixel x y = s.pixel x y := rfl
end advance

section skip
variable (s : State) (c : Bool)
@[simp] theorem skip_getV (r : Nibble) : (s.skip c).getV r = s.getV r := rfl
@[simp] theorem skip_i : (s.skip c).i = s.i := rfl
@[simp] theorem skip_pc : (s.skip c).pc = s.pc + (if c then 4 else 2) := rfl
@[simp] theorem skip_sp : (s.skip c).sp = s.sp := rfl
@[simp] theorem skip_stack : (s.skip c).stack = s.stack := rfl
@[simp] theorem skip_dt : (s.skip c).dt = s.dt := rfl
@[simp] theorem skip_st : (s.skip c).st = s.st := rfl
@[simp] theorem skip_fb : (s.skip c).fb = s.fb := rfl
@[simp] theorem skip_mem : (s.skip c).mem = s.mem := rfl
@[simp] theorem skip_portQueries : (s.skip c).portQueries = s.portQueries := rfl
@[simp] theorem skip_config : (s.skip c).config = s.config := rfl
@[simp] theorem skip_pixel (x : Fin 64) (y : Fin 32) : (s.skip c).pixel x y = s.pixel x y := rfl
end skip

section jumpTo
variable (s : State) (a : Word)
@[simp] theorem jumpTo_getV (r : Nibble) : (s.jumpTo a).getV r = s.getV r := rfl
@[simp] theorem jumpTo_i : (s.jumpTo a).i = s.i := rfl
@[simp] theorem jumpTo_pc : (s.jumpTo a).pc = a := rfl
@[simp] theorem jumpTo_sp : (s.jumpTo a).sp = s.sp := rfl
@[simp] theorem jumpTo_stack : (s.jumpTo a).stack = s.stack := rfl
@[simp] theorem jumpTo_dt : (s.jumpTo a).dt = s.dt := rfl
@[simp] theorem jumpTo_st : (s.jumpTo a).st = s.st := rfl
@[simp] theorem jumpTo_fb : (s.jumpTo a).fb = s.fb := rfl
@[simp] theorem jumpTo_mem : (s.jumpTo a).mem = s.mem := rfl
@[simp] theorem jumpTo_portQueries : (s.jumpTo a).portQueries = s.portQueries := rfl
@[simp] theorem jumpTo_config : (s.jumpTo a).config = s.config := rfl
@[simp] theorem jumpTo_pixel (x : Fin 64) (y : Fin 32) : (s.jumpTo a).pixel x y = s.pixel x y := rfl
end jumpTo

section queried
variable (s : State)
@[simp] theorem queried_v : s.queried.v = s.v := rfl
@[simp] theorem queried_getV (r : Nibble) : s.queried.getV r = s.getV r := rfl
@[simp] theorem queried_i : s.queried.i = s.i := rfl
@[simp] theorem queried_pc : s.queried.pc = s.pc := rfl
@[simp] theorem queried_sp : s.queried.sp = s.sp := rfl
@[simp] theorem queried_stack : s.queried.stack = s.stack := rfl
@[simp] theorem queried_dt : s.queried.dt = s.dt := rfl
@[simp] theorem queried_st : s.queried.st = s.st := rfl
@[simp] theorem queried_fb : s.queried.fb = s.fb := rfl
@[simp] theorem queried_mem : s.queried.mem = s.mem := rfl
@[simp] theorem queried_portQueries : s.queried.portQueries = s.portQueries + 1 := rfl
@[simp] theorem queried_config : s.queried.config = s.config := rfl
@[simp] theorem queried_pixel (x : Fin 64) (y : Fin 32) : s.queried.pixel x y = s.pixel x y := rfl
end queried

section setResultAndFlag
variable (s : State) (x : Nibble) (a f : Byte)
@[simp] theorem setResultAndFlag_i : (s.setResultAndFlag x a f).i = s.i := rfl
@[simp] theorem setResultAndFlag_pc : (s.setResultAndFlag x a f).pc = s.pc := rfl
@[simp] theorem setResultAndFlag_sp : (s.setResultAndFlag x a f).sp = s.sp := rfl
@[simp] theorem setResultAndFlag_stack : (s.setResultAndFlag x a f).stack = s.stack := rfl
@[simp] theorem setResultAndFlag_dt : (s.setResultAndFlag x a f).dt = s.dt := rfl
@[simp] theorem setResultAndFlag_st : (s.setResultAndFlag x a f).st = s.st := rfl
@[simp] theorem setResultAndFlag_fb : (s.setResultAndFlag x a f).fb = s.fb := rfl
@[simp] theorem setResultAndFlag_mem : (s.setResultAndFlag x a f).mem = s.mem := rfl
@[simp] theorem setResultAndFlag_portQueries : (s.setResultAndFlag x a f).portQueries = s.portQueries := rfl
@[simp] theorem setResultAndFlag_config : (s.setResultAndFlag x a f).config = s.config := rfl
@[simp] theorem setResultAndFlag_pixel (px : Fin 64) (py : Fin 32) :
    (s.setResultAndFlag x a f).pixel px py = s.pixel px py := rfl
end setResultAndFlag

/-- A read of the register file after a write to it (R14). -/
@[simp] theorem getV_setV (s : State) (r q : Nibble) (b : Byte) :
    (s.setV r b).getV q = if q = r then b else s.getV q := by
  by_cases h : q = r
  · subst h; simp [State.getV, State.setV]
  · have h' : r.toNat ≠ q.toNat := fun e => h (BitVec.eq_of_toNat_eq e.symm)
    simp [State.getV, State.setV, Vector.getElem_set_ne, h, h']

/-- The flag is written last, so VF is the flag whatever `x` is (R112). -/
@[simp] theorem getV_setResultAndFlag (s : State) (x q : Nibble) (a f : Byte) :
    (s.setResultAndFlag x a f).getV q = if q = flagReg then f else if q = x then a else s.getV q := by
  simp [State.setResultAndFlag]

end Sys2Proof.Machine
end

