-- ==== Sys2Proof/Laws/Ops.lean ====
section
/-! SUPPORT. For each shared operation, once, everything it can do: the stack, the bounds rule, the fetch, the placing
of a word, the register block. -/

namespace Sys2Proof.Machine

/-- The bounds rule in numbers (R46). -/
theorem blockInBounds_iff (a : Word) (n : Nat) : blockInBounds a n = true ↔ n = 0 ∨ a.toNat + (n - 1) ≤ 4095 := by
  simp [blockInBounds, Config.lastAddress]

/-- A push answers a state only where the stack is not full, and then one entry more with the slot written (R22,
R161). -/
theorem push_ok_iff (s t : State) (a : Word) : s.push a = .ok t ↔
    s.sp ≠ s.config.stackCapacity ∧ t = { s with stack := s.stack.set s.sp a, sp := s.sp + 1 } := by
  unfold State.push
  split <;> simp [*, eq_comm]

/-- A push fails exactly at the capacity, with the overflow (R161). -/
theorem push_error_iff (s : State) (a : Word) (f : Fault) : s.push a = .error f ↔
    s.sp = s.config.stackCapacity ∧ f = .stackOverflow := by
  unfold State.push
  split <;> simp [*, eq_comm]

/-- A pop answers only on a non-empty stack: the top address, one entry less, no slot changed (R22, R23, R162). -/
theorem pop_ok_iff (s t : State) (a : Word) : s.pop = .ok (a, t) ↔
    s.sp ≠ 0 ∧ a = s.slot (s.sp - 1) ∧ t = { s with sp := s.sp - 1 } := by
  unfold State.pop
  split <;> simp [*, eq_comm]

/-- A pop fails exactly on the empty stack, with the underflow (R162). -/
theorem pop_error_iff (s : State) (f : Fault) : s.pop = .error f ↔ s.sp = 0 ∧ f = .stackUnderflow := by
  unfold State.pop
  split <;> simp [*, eq_comm]

/-- A slot after one slot of the stack was written (R22). -/
theorem getD_set_slot (l : List Word) (k j : Nat) (a : Word) :
    (l.set k a).getD j 0#16 = if j = k ∧ k < l.length then a else l.getD j 0#16 := by
  by_cases h : j = k
  · subst h
    by_cases hl : j < l.length
    · simp [hl]
    · simp [hl]
  · simp [List.getD_eq_getElem?_getD, List.getElem?_set_ne (Ne.symm h), h]

/-- The fetch inside `MEM` (R44, R61). -/
theorem fetchWord_inBounds (s : State) (h : s.pc.toNat ≤ 4094) :
    fetchWord s = some (Memory.get s.mem s.pc.toNat ++ Memory.get s.mem (s.pc.toNat + 1)) := by
  rw [fetchWord, if_pos ((blockInBounds_iff _ _).2 (by omega))]

/-- The fetch outside `MEM` (R46). -/
theorem fetchWord_outOfBounds (s : State) (h : s.pc.toNat > 4094) : fetchWord s = none := by
  rw [fetchWord, if_neg]
  rw [blockInBounds_iff]
  omega

/-- A word cut into bytes and put together again. -/
theorem highByte_append_lowByte (w : Word) : highByte w ++ lowByte w = w := by
  apply BitVec.eq_of_getLsbD_eq
  intro k hk
  simp only [highByte, lowByte, BitVec.getLsbD_append, BitVec.getLsbD_extractLsb']
  by_cases h : k < 8
  · simp [h]
  · have : k - 8 < 8 := by omega
    have e : 8 + (k - 8) = k := by omega
    simp [h, this, e]

/-- A placed word is what the fetch reads next. -/
theorem fetchWord_placeWord (s : State) (w : Word) : fetchWord (placeWord s w) = some w := by
  have key : ∀ pc0 : Word, pc0.toNat ≤ 4094 →
      fetchWord { s with pc := pc0, mem := Memory.setBlock s.mem pc0.toNat [highByte w, lowByte w] } = some w := by
    intro pc0 h
    rw [fetchWord_inBounds _ h]
    simp [memory_get_setBlock, highByte_append_lowByte]
  unfold placeWord
  split
  · rename_i h
    rw [blockInBounds_iff] at h
    exact key _ (by omega)
  · exact key _ (by decide)

/-- A block load writes registers only (R135, R136). -/
theorem setVFrom_eq (bs : List Byte) : ∀ (s : State) (k : Nat),
    s.setVFrom k bs = { s with v := (s.setVFrom k bs).v } := by
  induction bs with
  | nil => intro s k; rfl
  | cons b bs ih => intro s k; rw [State.setVFrom, ih]; rfl

section setVFrom
variable (s : State) (k : Nat) (bs : List Byte)
@[simp] theorem setVFrom_i : (s.setVFrom k bs).i = s.i := by rw [setVFrom_eq]
@[simp] theorem setVFrom_pc : (s.setVFrom k bs).pc = s.pc := by rw [setVFrom_eq]
@[simp] theorem setVFrom_sp : (s.setVFrom k bs).sp = s.sp := by rw [setVFrom_eq]
@[simp] theorem setVFrom_stack : (s.setVFrom k bs).stack = s.stack := by rw [setVFrom_eq]
@[simp] theorem setVFrom_dt : (s.setVFrom k bs).dt = s.dt := by rw [setVFrom_eq]
@[simp] theorem setVFrom_st : (s.setVFrom k bs).st = s.st := by rw [setVFrom_eq]
@[simp] theorem setVFrom_fb : (s.setVFrom k bs).fb = s.fb := by rw [setVFrom_eq]
@[simp] theorem setVFrom_mem : (s.setVFrom k bs).mem = s.mem := by rw [setVFrom_eq]
@[simp] theorem setVFrom_portQueries : (s.setVFrom k bs).portQueries = s.portQueries := by rw [setVFrom_eq]
@[simp] theorem setVFrom_config : (s.setVFrom k bs).config = s.config := by rw [setVFrom_eq]
end setVFrom

/-- A register after a block load: the byte of the list for a register of the block, the old value for any other
(R135). -/
theorem getV_setVFrom (bs : List Byte) : ∀ (s : State) (k : Nat) (r : Nibble), k + bs.length ≤ 16 →
    (s.setVFrom k bs).getV r = if h : k ≤ r.toNat ∧ r.toNat - k < bs.length then bs[r.toNat - k] else s.getV r := by
  induction bs with
  | nil => intro s k r _; simp [State.setVFrom]
  | cons b bs ih =>
    intro s k r hk
    simp only [List.length_cons] at hk
    have e : r = BitVec.ofNat 4 k ↔ r.toNat = k := by
      constructor
      · intro h; rw [h]; simp [BitVec.toNat_ofNat]; omega
      · intro h; rw [← h]; simp
    rw [State.setVFrom, ih _ _ _ (by omega), getV_setV]
    simp only [e, List.length_cons]
    by_cases h1 : r.toNat = k
    · subst h1; simp
    · by_cases h2 : k ≤ r.toNat
      · have h3 : r.toNat - k = (r.toNat - (k + 1)) + 1 := by omega
        have h4 : k + 1 ≤ r.toNat := by omega
        by_cases h5 : r.toNat - (k + 1) < bs.length
        · simp only [h2, h3, h4, h5, and_self, Nat.add_lt_add_iff_right, dif_pos, List.getElem_cons_succ]
        · simp [h1, h2, h3, h4, h5]
      · have h4 : ¬ k + 1 ≤ r.toNat := by omega
        simp [h1, h2, h4]

end Sys2Proof.Machine
end

