-- ==== Sys2Proof/Laws/Exec.lean ====
section
/-! SUPPORT. What an instruction can answer, once for all of them: the fatal condition it meets, else a next state. -/

namespace Sys2Proof.Machine

/-- An instruction that meets no fatal condition completes; one that meets one answers it (R161 to R165). -/
theorem exec_completes_or_faults (i : Instr) (s : State) :
    (fatalCondition i s = none ∧ ∃ t, exec i s = .next t) ∨
      ∃ f, fatalCondition i s = some f ∧ exec i s = .fault f := by
  have block : ∀ n : Nat, blockInBounds s.i (n + 1) = true ↔ s.i.toNat + n ≤ 4095 := by
    intro n; rw [blockInBounds_iff]; simp
  cases i with
  | call nnn =>
    by_cases h : s.sp = s.config.stackCapacity
    · refine .inr ⟨.stackOverflow, by simp [fatalCondition, h], ?_⟩
      simp only [exec, execCall, (push_error_iff s (s.pc + 2) .stackOverflow).2 ⟨h, rfl⟩, raise]
    · have hp := (push_ok_iff s _ (s.pc + 2)).2 ⟨h, rfl⟩
      have he : exec (.call nnn) s = .next (State.jumpTo
          { s with stack := s.stack.set s.sp (s.pc + 2), sp := s.sp + 1 } (zext12 nnn)) := by
        simp only [exec, execCall, hp]
      exact .inl ⟨by simp [fatalCondition, h], _, he⟩
  | ret =>
    by_cases h : s.sp = 0
    · refine .inr ⟨.stackUnderflow, by simp [fatalCondition, h], ?_⟩
      simp only [exec, execRet, (pop_error_iff s .stackUnderflow).2 ⟨h, rfl⟩, raise]
    · have hp := (pop_ok_iff s _ _).2 ⟨h, rfl, rfl⟩
      have he : exec .ret s = .next (State.jumpTo { s with sp := s.sp - 1 } (s.slot (s.sp - 1))) := by
        simp only [exec, execRet, hp]
      exact .inl ⟨by simp [fatalCondition, h], _, he⟩
  | drw x y n =>
    by_cases h : 1 ≤ n.toNat ∧ s.i.toNat + n.toNat - 1 > 4095
    · refine .inr ⟨.memOutOfBounds, by simp only [fatalCondition, h, and_self, if_true], ?_⟩
      simp only [exec, execDrw, raise]
      rw [if_neg]; rw [blockInBounds_iff]; omega
    · exact .inl ⟨by simp only [fatalCondition, h, if_false], _, if_pos ((blockInBounds_iff _ _).2 (by omega))⟩
  | ldB x =>
    by_cases h : s.i.toNat + 2 > 4095
    · refine .inr ⟨.memOutOfBounds, by simp only [fatalCondition, h, if_true], ?_⟩
      simp only [exec, execLdB, raise]
      rw [if_neg]; rw [block 2]; omega
    · exact .inl ⟨by simp only [fatalCondition, h, if_false], _, if_pos ((block 2).2 (by omega))⟩
  | storeRegs x =>
    by_cases h : s.i.toNat + x.toNat > 4095
    · refine .inr ⟨.memOutOfBounds, by simp only [fatalCondition, h, if_true], ?_⟩
      simp only [exec, execStoreRegs, raise]
      rw [if_neg]; rw [block]; omega
    · exact .inl ⟨by simp only [fatalCondition, h, if_false], _, if_pos ((block _).2 (by omega))⟩
  | loadRegs x =>
    by_cases h : s.i.toNat + x.toNat > 4095
    · refine .inr ⟨.memOutOfBounds, by simp only [fatalCondition, h, if_true], ?_⟩
      simp only [exec, execLoadRegs, raise]
      rw [if_neg]; rw [block]; omega
    · exact .inl ⟨by simp only [fatalCondition, h, if_false], _, if_pos ((block _).2 (by omega))⟩
  | cls | jp | seImm | sneImm | seReg | ldImm | addImm | ldReg | orReg | andReg | xorReg | addReg | subReg | shr
  | subnReg | shl | sneReg | ldI | jpV0 | rnd | skp | sknp | ldVxDT | ldVxK | ldDTVx | ldSTVx | addIVx | ldF
  | unknown => exact .inl ⟨rfl, _, rfl⟩

end Sys2Proof.Machine
end

