-- ==== Sys2Proof/Laws/PerInstr.lean ====
section
/-! SUPPORT. Per instruction: the encoded word falls in the row of R68 the instruction stands for. -/

namespace Sys2Proof.Laws.EncodingRow

/-- The row of R68 of a defined instruction; none for an unknown opcode (R69). -/
def rowOf : Instr → Option OpcodeRow
  | .cls => some ⟨0xFFFF, 0x00E0⟩
  | .ret => some ⟨0xFFFF, 0x00EE⟩
  | .jp _ => some ⟨0xF000, 0x1000⟩
  | .call _ => some ⟨0xF000, 0x2000⟩
  | .seImm _ _ => some ⟨0xF000, 0x3000⟩
  | .sneImm _ _ => some ⟨0xF000, 0x4000⟩
  | .seReg _ _ => some ⟨0xF00F, 0x5000⟩
  | .ldImm _ _ => some ⟨0xF000, 0x6000⟩
  | .addImm _ _ => some ⟨0xF000, 0x7000⟩
  | .ldReg _ _ => some ⟨0xF00F, 0x8000⟩
  | .orReg _ _ => some ⟨0xF00F, 0x8001⟩
  | .andReg _ _ => some ⟨0xF00F, 0x8002⟩
  | .xorReg _ _ => some ⟨0xF00F, 0x8003⟩
  | .addReg _ _ => some ⟨0xF00F, 0x8004⟩
  | .subReg _ _ => some ⟨0xF00F, 0x8005⟩
  | .shr _ _ => some ⟨0xF00F, 0x8006⟩
  | .subnReg _ _ => some ⟨0xF00F, 0x8007⟩
  | .shl _ _ => some ⟨0xF00F, 0x800E⟩
  | .sneReg _ _ => some ⟨0xF00F, 0x9000⟩
  | .ldI _ => some ⟨0xF000, 0xA000⟩
  | .jpV0 _ => some ⟨0xF000, 0xB000⟩
  | .rnd _ _ => some ⟨0xF000, 0xC000⟩
  | .drw _ _ _ => some ⟨0xF000, 0xD000⟩
  | .skp _ => some ⟨0xF0FF, 0xE09E⟩
  | .sknp _ => some ⟨0xF0FF, 0xE0A1⟩
  | .ldVxDT _ => some ⟨0xF0FF, 0xF007⟩
  | .ldVxK _ => some ⟨0xF0FF, 0xF00A⟩
  | .ldDTVx _ => some ⟨0xF0FF, 0xF015⟩
  | .ldSTVx _ => some ⟨0xF0FF, 0xF018⟩
  | .addIVx _ => some ⟨0xF0FF, 0xF01E⟩
  | .ldF _ => some ⟨0xF0FF, 0xF029⟩
  | .ldB _ => some ⟨0xF0FF, 0xF033⟩
  | .storeRegs _ => some ⟨0xF0FF, 0xF055⟩
  | .loadRegs _ => some ⟨0xF0FF, 0xF065⟩
  | .unknown _ => none

/-- The word of a defined instruction is accepted by its own row, which is a row of the map; the word of a well-formed
unknown opcode is accepted by none (R68, R69). -/
def Statement (i : Instr) : Prop :=
  match rowOf i with
  | some r => r ∈ definedRows ∧ r.accepts (encode i) = true
  | none => i.wf = true → isDefinedWord (encode i) = false

/-- A word of format NNN under the mask of its first nibble (R66). -/
theorem formatNNN_and_mask (n1 : Nibble) (nnn : Imm12) : formatNNN n1 nnn &&& 0xF000#16 = n1 ++ 0x000#12 := by
  apply BitVec.eq_of_getLsbD_eq; intro k hk
  rw [BitVec.getLsbD_and, getLsbD_formatNNN]
  refine Eq.trans ?_ (BitVec.getLsbD_append (x := n1) (y := 0x000#12) (i := k)).symm
  interval_cases k <;> simp

/-- A word of format XNN under the mask of its first nibble (R66). -/
theorem formatXNN_and_mask (n1 x : Nibble) (nn : Byte) :
    formatXNN n1 x nn &&& 0xF000#16 = formatXNN n1 0x0#4 0x00#8 := by
  apply BitVec.eq_of_getLsbD_eq; intro k hk
  rw [BitVec.getLsbD_and, getLsbD_formatXNN, getLsbD_formatXNN]
  interval_cases k <;> simp

/-- A word of format XKK under the mask of its first nibble and its low byte (R66). -/
theorem formatXKK_and_mask (n1 x : Nibble) (nn : Byte) :
    formatXNN n1 x nn &&& 0xF0FF#16 = formatXNN n1 0x0#4 nn := by
  apply BitVec.eq_of_getLsbD_eq; intro k hk
  rw [BitVec.getLsbD_and, getLsbD_formatXNN, getLsbD_formatXNN]
  interval_cases k <;> simp

/-- A word of format XYN under the mask of its first and last nibbles (R66). -/
theorem formatXYN_and_mask (n1 x y n : Nibble) :
    formatXYN n1 x y n &&& 0xF00F#16 = formatXYN n1 0x0#4 0x0#4 n := by
  apply BitVec.eq_of_getLsbD_eq; intro k hk
  rw [BitVec.getLsbD_and, getLsbD_formatXYN, getLsbD_formatXYN]
  interval_cases k <;> simp

/-- A word of format XYN under the mask of its first nibble (R66; the row of `Dxyn`). -/
theorem formatXYN_and_first (n1 x y n : Nibble) :
    formatXYN n1 x y n &&& 0xF000#16 = formatXYN n1 0x0#4 0x0#4 0x0#4 := by
  apply BitVec.eq_of_getLsbD_eq; intro k hk
  rw [BitVec.getLsbD_and, getLsbD_formatXYN, getLsbD_formatXYN]
  interval_cases k <;> simp

theorem cls : Statement .cls := ⟨by decide, by decide⟩

theorem ret : Statement .ret := ⟨by decide, by decide⟩

theorem jp (nnn : Imm12) : Statement (.jp nnn) :=
  ⟨by decide, beq_iff_eq.2 ((formatNNN_and_mask _ _).trans (by decide))⟩

theorem call (nnn : Imm12) : Statement (.call nnn) :=
  ⟨by decide, beq_iff_eq.2 ((formatNNN_and_mask _ _).trans (by decide))⟩

theorem seImm (x : Nibble) (nn : Byte) : Statement (.seImm x nn) :=
  ⟨by decide, beq_iff_eq.2 ((formatXNN_and_mask _ _ _).trans (by decide))⟩

theorem sneImm (x : Nibble) (nn : Byte) : Statement (.sneImm x nn) :=
  ⟨by decide, beq_iff_eq.2 ((formatXNN_and_mask _ _ _).trans (by decide))⟩

theorem seReg (x y : Nibble) : Statement (.seReg x y) :=
  ⟨by decide, beq_iff_eq.2 ((formatXYN_and_mask _ _ _ _).trans (by decide))⟩

theorem ldImm (x : Nibble) (nn : Byte) : Statement (.ldImm x nn) :=
  ⟨by decide, beq_iff_eq.2 ((formatXNN_and_mask _ _ _).trans (by decide))⟩

theorem addImm (x : Nibble) (nn : Byte) : Statement (.addImm x nn) :=
  ⟨by decide, beq_iff_eq.2 ((formatXNN_and_mask _ _ _).trans (by decide))⟩

theorem ldReg (x y : Nibble) : Statement (.ldReg x y) :=
  ⟨by decide, beq_iff_eq.2 ((formatXYN_and_mask _ _ _ _).trans (by decide))⟩

theorem orReg (x y : Nibble) : Statement (.orReg x y) :=
  ⟨by decide, beq_iff_eq.2 ((formatXYN_and_mask _ _ _ _).trans (by decide))⟩

theorem andReg (x y : Nibble) : Statement (.andReg x y) :=
  ⟨by decide, beq_iff_eq.2 ((formatXYN_and_mask _ _ _ _).trans (by decide))⟩

theorem xorReg (x y : Nibble) : Statement (.xorReg x y) :=
  ⟨by decide, beq_iff_eq.2 ((formatXYN_and_mask _ _ _ _).trans (by decide))⟩

theorem addReg (x y : Nibble) : Statement (.addReg x y) :=
  ⟨by decide, beq_iff_eq.2 ((formatXYN_and_mask _ _ _ _).trans (by decide))⟩

theorem subReg (x y : Nibble) : Statement (.subReg x y) :=
  ⟨by decide, beq_iff_eq.2 ((formatXYN_and_mask _ _ _ _).trans (by decide))⟩

theorem shr (x y : Nibble) : Statement (.shr x y) :=
  ⟨by decide, beq_iff_eq.2 ((formatXYN_and_mask _ _ _ _).trans (by decide))⟩

theorem subnReg (x y : Nibble) : Statement (.subnReg x y) :=
  ⟨by decide, beq_iff_eq.2 ((formatXYN_and_mask _ _ _ _).trans (by decide))⟩

theorem shl (x y : Nibble) : Statement (.shl x y) :=
  ⟨by decide, beq_iff_eq.2 ((formatXYN_and_mask _ _ _ _).trans (by decide))⟩

theorem sneReg (x y : Nibble) : Statement (.sneReg x y) :=
  ⟨by decide, beq_iff_eq.2 ((formatXYN_and_mask _ _ _ _).trans (by decide))⟩

theorem ldI (nnn : Imm12) : Statement (.ldI nnn) :=
  ⟨by decide, beq_iff_eq.2 ((formatNNN_and_mask _ _).trans (by decide))⟩

theorem jpV0 (nnn : Imm12) : Statement (.jpV0 nnn) :=
  ⟨by decide, beq_iff_eq.2 ((formatNNN_and_mask _ _).trans (by decide))⟩

theorem rnd (x : Nibble) (nn : Byte) : Statement (.rnd x nn) :=
  ⟨by decide, beq_iff_eq.2 ((formatXNN_and_mask _ _ _).trans (by decide))⟩

theorem drw (x y n : Nibble) : Statement (.drw x y n) :=
  ⟨by decide, beq_iff_eq.2 ((formatXYN_and_first _ _ _ _).trans (by decide))⟩

theorem skp (x : Nibble) : Statement (.skp x) :=
  ⟨by decide, beq_iff_eq.2 ((formatXKK_and_mask _ _ _).trans (by decide))⟩

theorem sknp (x : Nibble) : Statement (.sknp x) :=
  ⟨by decide, beq_iff_eq.2 ((formatXKK_and_mask _ _ _).trans (by decide))⟩

theorem ldVxDT (x : Nibble) : Statement (.ldVxDT x) :=
  ⟨by decide, beq_iff_eq.2 ((formatXKK_and_mask _ _ _).trans (by decide))⟩

theorem ldVxK (x : Nibble) : Statement (.ldVxK x) :=
  ⟨by decide, beq_iff_eq.2 ((formatXKK_and_mask _ _ _).trans (by decide))⟩

theorem ldDTVx (x : Nibble) : Statement (.ldDTVx x) :=
  ⟨by decide, beq_iff_eq.2 ((formatXKK_and_mask _ _ _).trans (by decide))⟩

theorem ldSTVx (x : Nibble) : Statement (.ldSTVx x) :=
  ⟨by decide, beq_iff_eq.2 ((formatXKK_and_mask _ _ _).trans (by decide))⟩

theorem addIVx (x : Nibble) : Statement (.addIVx x) :=
  ⟨by decide, beq_iff_eq.2 ((formatXKK_and_mask _ _ _).trans (by decide))⟩

theorem ldF (x : Nibble) : Statement (.ldF x) :=
  ⟨by decide, beq_iff_eq.2 ((formatXKK_and_mask _ _ _).trans (by decide))⟩

theorem ldB (x : Nibble) : Statement (.ldB x) :=
  ⟨by decide, beq_iff_eq.2 ((formatXKK_and_mask _ _ _).trans (by decide))⟩

theorem storeRegs (x : Nibble) : Statement (.storeRegs x) :=
  ⟨by decide, beq_iff_eq.2 ((formatXKK_and_mask _ _ _).trans (by decide))⟩

theorem loadRegs (x : Nibble) : Statement (.loadRegs x) :=
  ⟨by decide, beq_iff_eq.2 ((formatXKK_and_mask _ _ _).trans (by decide))⟩

theorem unknown (w : Word) : Statement (.unknown w) := by
  intro h
  simpa [Instr.wf, encode] using h

end Sys2Proof.Laws.EncodingRow
end

