-- ==== Sys2Proof/Tests/Slice0.lean ====
section
/-! SUPPORT. Tests on fixed values, from the vectors of spec/95_test_vectors.md (named in each comment) and the
encodings of 30_encoding.md; and for every obligation with hypotheses, states and operands that meet them. -/

namespace Sys2Proof.Tests
open Sys2Proof Sys2Proof.Machine

/-! ### Helpers -/

/-- Registers written one after the other. -/
def withV (l : List (Nibble × Byte)) (s : State) : State := l.foldl (fun s p => s.setV p.1 p.2) s

/-- Bytes put into `MEM` at an address. -/
def withMem (a : Nat) (bs : List Byte) (s : State) : State := { s with mem := Memory.setBlock s.mem a bs }

/-- Pixels of a clear screen set to 1. -/
def withPixels (l : List (Fin 64 × Fin 32)) (s : State) : State :=
  { s with fb := l.foldl (fun f p => Screen.toggle f p.1 p.2) s.fb }

/-- What is read off the state after one step that fetches the word `w`. -/
def after {α : Type} (w : Word) (s : State) (f : State → α) : Option α :=
  match step (placeWord s w) with
  | .next t => some (f t)
  | .fault _ => none
  | .refused _ => none

/-- The fault of one step that fetches the word `w`. -/
def faultOf (w : Word) (s : State) : Option Fault :=
  match step (placeWord s w) with
  | .next _ => none
  | .fault f => some f
  | .refused _ => none

/-- The result of one tick that fetches the word `w`. -/
def resultOf (w : Word) (s : State) : Option TickResult :=
  match tick (placeWord s w) with
  | .ok o => some o.result
  | .error _ => none

/-- The reset state, `R` for short. -/
abbrev R : State := State.reset

/-! ### Well-formed terms: a word that some row matches is no unknown opcode -/

theorem test_wf_refuses_defined_words : ∀ r ∈ definedRows, (Instr.unknown r.value).wf = false := by decide

theorem test_wf_accepts : (Instr.unknown 0x5121#16).wf = true ∧ (Instr.unknown 0x0000#16).wf = true ∧
    (Instr.drw 1#4 2#4 0#4).wf = true := by decide

/-! ### Decoding: words written bit by bit from the encodings of the rules -/

theorem test_decode_control : decode 0b0001000000000010#16 = .jp 0x002#12 ∧
    decode 0b0010001100000000#16 = .call 0x300#12 ∧ decode 0b0000000011101110#16 = .ret ∧
    decode 0b1011111111111111#16 = .jpV0 0xFFF#12 := by decide

theorem test_decode_skip : decode 0b0011101001000010#16 = .seImm 10#4 0x42#8 ∧
    decode 0b0100101001000010#16 = .sneImm 10#4 0x42#8 ∧ decode 0b0101000100100000#16 = .seReg 1#4 2#4 ∧
    decode 0b1001000100100000#16 = .sneReg 1#4 2#4 ∧ decode 0b1110010110011110#16 = .skp 5#4 ∧
    decode 0b1110010110100001#16 = .sknp 5#4 := by decide

theorem test_decode_load : decode 0b0110101001011100#16 = .ldImm 10#4 0x5C#8 ∧
    decode 0b0111001100000001#16 = .addImm 3#4 0x01#8 ∧ decode 0b1100001100001111#16 = .rnd 3#4 0x0F#8 := by decide

theorem test_decode_group8 : decode 0b1000000100100000#16 = .ldReg 1#4 2#4 ∧
    decode 0b1000000100100001#16 = .orReg 1#4 2#4 ∧ decode 0b1000000100100010#16 = .andReg 1#4 2#4 ∧
    decode 0b1000000100100011#16 = .xorReg 1#4 2#4 ∧ decode 0b1000000100100100#16 = .addReg 1#4 2#4 ∧
    decode 0b1000000100100101#16 = .subReg 1#4 2#4 ∧ decode 0b1000000100100110#16 = .shr 1#4 2#4 ∧
    decode 0b1000000100100111#16 = .subnReg 1#4 2#4 ∧ decode 0b1000000100101110#16 = .shl 1#4 2#4 := by decide

theorem test_decode_display : decode 0b0000000011100000#16 = .cls ∧
    decode 0b1101000100101111#16 = .drw 1#4 2#4 15#4 := by decide

theorem test_decode_index : decode 0b1010000100100011#16 = .ldI 0x123#12 ∧
    decode 0b1111001100011110#16 = .addIVx 3#4 ∧ decode 0b1111001100101001#16 = .ldF 3#4 ∧
    decode 0b1111001100110011#16 = .ldB 3#4 ∧ decode 0b1111001001010101#16 = .storeRegs 2#4 ∧
    decode 0b1111001001100101#16 = .loadRegs 2#4 := by decide

theorem test_decode_timers : decode 0b1111001100000111#16 = .ldVxDT 3#4 ∧
    decode 0b1111001100010101#16 = .ldDTVx 3#4 ∧ decode 0b1111001100011000#16 = .ldSTVx 3#4 ∧
    decode 0b1111001100001010#16 = .ldVxK 3#4 := by decide

theorem test_decode_unknown : decode 0x0000#16 = .unknown 0x0000#16 ∧ decode 0x01E0#16 = .unknown 0x01E0#16 ∧
    decode 0x0FEE#16 = .unknown 0x0FEE#16 ∧ decode 0x8128#16 = .unknown 0x8128#16 ∧
    decode 0x912F#16 = .unknown 0x912F#16 ∧ decode 0xE59F#16 = .unknown 0xE59F#16 ∧
    decode 0xF375#16 = .unknown 0xF375#16 := by decide

/-- Bytes are read big-endian; one byte is too few. -/
theorem test_decode_bytes : decodeBytes [0x12#8, 0x02#8, 0x1F#8] = .ok (.jp 0x202#12, [0x1F#8]) ∧
    decodeBytes [0x12#8] = .error .truncated ∧ decodeBytes [] = .error .truncated ∧
    encodeBytes (.jp 0x202#12) = [0x12#8, 0x02#8] := by decide

theorem test_decode_table_word : decodeTableWord 16 0x8126 = some (.shr 1#4 2#4) ∧
    decodeTableWord 8 0x00E0 = some .cls := by decide

/-- A placed word is what the first step after reset runs. -/
theorem test_place_word : (match step (State.reset.withFetchWord 16 0x1ABC) with
    | .next t => t.pc == 0x0ABC#16 | .fault _ => false | .refused _ => false) = true := by decide

/-! ### Control transfer -/

/-- T1; W8 (the odd target 0xFFF is taken). -/
theorem test_jp : after 0x1ABC#16 R State.pc = some 0x0ABC#16 ∧ after 0x1FFF#16 R State.pc = some 0x0FFF#16 := by
  decide

/-- T8; T17 (0x1000 is pushed without a check). -/
theorem test_call : after 0x2300#16 R (fun t => (t.pc, t.sp, t.slot 0)) =
      some (0x0300#16, 1, 0x0202#16) ∧
    after 0x2FFE#16 { R with pc := 0x0FFE#16 } (fun t => (t.pc, t.sp, t.slot 0)) =
      some (0x0FFE#16, 1, 0x1000#16) := by decide

/-- A core constructed with room for one return address. -/
def oneSlot : State := State.resetWith { params with stackCapacity := 1 }

/-- T9 and T10: the last slot, and the overflow; PG3 with STACK_CAPACITY = 1: the second nested call overflows. -/
theorem test_call_capacity : after 0x2300#16 { R with sp := 15 } (fun t => (t.sp, t.slot 15)) =
      some (16, 0x0202#16) ∧ faultOf 0x2300#16 { R with sp := 16 } = some .stackOverflow ∧
    after 0x2200#16 oneSlot State.sp = some 1 ∧ faultOf 0x2200#16 { oneSlot with sp := 1 } = some .stackOverflow := by
  decide

/-- A stack with one entry, as in T11. -/
def oneEntry : State := { R with pc := 0x0300#16, sp := 1, stack := R.stack.set 0 0x0202#16 }

/-- T11: the slot keeps its value. -/
theorem test_ret : after 0x00EE#16 oneEntry (fun t => (t.pc, t.sp, t.slot 0)) =
    some (0x0202#16, 0, 0x0202#16) := by decide

/-- T12 and T13: the underflow, also with a stale slot. -/
theorem test_ret_empty : faultOf 0x00EE#16 R = some .stackUnderflow ∧
    faultOf 0x00EE#16 { oneEntry with sp := 0 } = some .stackUnderflow := by decide

/-- T15 (not reduced modulo 4096); T16 (only V0 counts). -/
theorem test_jpV0 : after 0xBFFF#16 (withV [(0, 0xFF)] R) State.pc = some 0x10FE#16 ∧
    after 0xB300#16 (withV [(3, 0x10)] R) State.pc = some 0x0300#16 := by decide

/-- T5 (the last fetchable word), T4 and T7. -/
theorem test_fetch_end : after 0x0000#16 { R with pc := 0x0FFE#16 } State.pc = some 0x1000#16 ∧
    tick { R with pc := 0x0FFF#16 } =
      .ok { result := .faultMemOob, state := { R with pc := 0x0FFF#16 }, calls := [] } ∧
    step { R with pc := 0xFFFF#16 } = .fault .memOutOfBounds := ⟨by decide, rfl, rfl⟩

/-! ### Conditional skip -/

/-- K1, K2. -/
theorem test_seImm : after 0x3A42#16 (withV [(10, 0x42)] R) State.pc = some 0x0204#16 ∧
    after 0x3A42#16 (withV [(10, 0x43)] R) State.pc = some 0x0202#16 := by decide

/-- K3, K4. -/
theorem test_sneImm : after 0x4A42#16 (withV [(10, 0x42)] R) State.pc = some 0x0202#16 ∧
    after 0x4A42#16 (withV [(10, 0x43)] R) State.pc = some 0x0204#16 := by decide

/-- K5, K6. -/
theorem test_seReg : after 0x5120#16 (withV [(1, 7), (2, 7)] R) State.pc = some 0x0204#16 ∧
    after 0x5120#16 (withV [(1, 7), (2, 8)] R) State.pc = some 0x0202#16 := by decide

/-- K9, K10. -/
theorem test_sneReg : after 0x9120#16 (withV [(1, 7), (2, 8)] R) State.pc = some 0x0204#16 ∧
    after 0x9120#16 (withV [(1, 7), (2, 7)] R) State.pc = some 0x0202#16 := by decide

/-- The key asked for is the low nibble of the register (K13, K17). -/
theorem test_skip_key_number : (withV [(5, 0x1A)] R).lowNibble 5 = 0xA#4 := by decide

/-- K13, K14: the skip follows the answer, whichever it is. -/
theorem test_skp : after 0xE59E#16 (withV [(5, 0x0A)] R) (fun t => (t.pc, t.portQueries)) =
    some (0x0200#16 + (if (placeWord (withV [(5, 0x0A)] R) 0xE59E#16).keyPressedAnswer 0xA#4 then 4 else 2), 1) := rfl

/-- K15, K16. -/
theorem test_sknp : after 0xE5A1#16 (withV [(5, 0x0A)] R) (fun t => (t.pc, t.portQueries)) =
    some (0x0200#16 + (if !(placeWord (withV [(5, 0x0A)] R) 0xE5A1#16).keyPressedAnswer 0xA#4 then 4 else 2), 1) :=
  rfl

/-! ### Register load, arithmetic, logic, shift, random -/

/-- W1. -/
theorem test_ldImm : after 0x6A5C#16 R (fun t => (t.getV 10, t.pc)) = some (0x5C, 0x0202#16) := by decide

/-- A3. -/
theorem test_addImm : after 0x7301#16 (withV [(3, 0xFF), (15, 0x55)] R) (fun t => (t.getV 3, t.getV 15)) =
    some (0x00, 0x55) := by decide

/-- A6. -/
theorem test_ldReg : after 0x8120#16 (withV [(1, 0x11), (2, 0x22), (15, 0x55)] R) (fun t => (t.getV 1, t.getV 15)) =
    some (0x22, 0x55) := by decide

/-- A7. -/
theorem test_orReg : after 0x8121#16 (withV [(1, 0xF0), (2, 0x0F), (15, 0x55)] R) (fun t => (t.getV 1, t.getV 15)) =
    some (0xFF, 0x55) := by decide

/-- A8. -/
theorem test_andReg : after 0x8122#16 (withV [(1, 0xF3), (2, 0x3F), (15, 0x55)] R)
    (fun t => (t.getV 1, t.getV 15)) = some (0x33, 0x55) := by decide

/-- A9. -/
theorem test_xorReg : after 0x8123#16 (withV [(1, 0xFF), (2, 0x0F), (15, 0x55)] R)
    (fun t => (t.getV 1, t.getV 15)) = some (0xF0, 0x55) := by decide

/-- A11, A13. -/
theorem test_addReg : after 0x8124#16 (withV [(1, 0xF0), (2, 0x20), (15, 0x55)] R)
      (fun t => (t.getV 1, t.getV 15)) = some (0x10, 0x01) ∧
    after 0x8124#16 (withV [(1, 0xFF), (15, 0x01)] R) (fun t => (t.getV 1, t.getV 15)) = some (0xFF, 0x00) := by decide

/-- A15, A17: VF as destination and as operand. -/
theorem test_addReg_flag : after 0x8F14#16 (withV [(15, 0xF0), (1, 0x20)] R) (State.getV · 15) = some 0x01 ∧
    after 0x81F4#16 (withV [(1, 0x01), (15, 0xFF)] R) (fun t => (t.getV 1, t.getV 15)) = some (0x00, 0x01) := by decide

/-- A20, A21. -/
theorem test_subReg : after 0x8125#16 (withV [(1, 0x01), (2, 0x10), (15, 0x01)] R)
      (fun t => (t.getV 1, t.getV 15)) = some (0xF1, 0x00) ∧
    after 0x8125#16 (withV [(1, 0x42), (2, 0x42)] R) (fun t => (t.getV 1, t.getV 15)) = some (0x00, 0x01) := by decide

/-- A24, A25. -/
theorem test_subnReg : after 0x8127#16 (withV [(1, 0x01), (2, 0x10)] R)
      (fun t => (t.getV 1, t.getV 15)) = some (0x0F, 0x01) ∧
    after 0x8127#16 (withV [(1, 0x10), (2, 0x01), (15, 0x01)] R) (fun t => (t.getV 1, t.getV 15)) =
      some (0xF1, 0x00) := by decide

/-- Every switch set, and the font at 0x100. -/
def switched : Config.Params :=
  { stackCapacity := 16, fontBase := 0x100#12, zeroGroupLoose := true, shiftUsesVy := true, drawWraps := true }

/-- D5: with SHIFT_USES_VY the shifts take value and flag from V2. -/
theorem test_shifts_of_Vy : after 0x8126#16 (withV [(1, 0x80), (2, 0x05)] (State.resetWith switched))
      (fun t => (t.getV 1, t.getV 2, t.getV 15)) = some (0x02, 0x05, 0x01) ∧
    after 0x812E#16 (withV [(1, 0x01), (2, 0x81)] (State.resetWith switched)) (fun t => (t.getV 1, t.getV 15)) =
      some (0x02, 0x01) := by decide

/-- A27 (V2 is ignored), A30 (VF as destination). -/
theorem test_shr : after 0x8126#16 (withV [(1, 0x05), (2, 0xFF)] R) (fun t => (t.getV 1, t.getV 15)) =
      some (0x02, 0x01) ∧
    after 0x8F16#16 (withV [(15, 0x02)] R) (State.getV · 15) = some 0x00 := by decide

/-- A31, A32. -/
theorem test_shl : after 0x812E#16 (withV [(1, 0x81)] R) (fun t => (t.getV 1, t.getV 15)) = some (0x02, 0x01) ∧
    after 0x812E#16 (withV [(1, 0x7F), (15, 0x01)] R) (fun t => (t.getV 1, t.getV 15)) = some (0xFE, 0x00) := by decide

/-- A34: the answer masked, whatever it is. -/
theorem test_rnd : after 0xC30F#16 R (fun t => (t.getV 3, t.pc, t.portQueries)) =
    some ((placeWord R 0xC30F#16).randomByteAnswer &&& 0x0F#8, 0x0202#16, 1) := rfl

/-- A35: mask 0 gives 0 and still asks once. -/
theorem test_rnd_mask_zero : after 0xC300#16 (withV [(3, 0x77)] R) (fun t => (t.getV 3, t.portQueries)) =
    some (0x00, 1) := by
  have h : ∀ b : Byte, b &&& 0x00#8 = 0x00#8 := by decide
  exact congrArg some (Prod.ext (h _) rfl)

/-! ### Display -/

/-- P1; D12: 0x0000 is CLS with ZERO_GROUP_LOOSE. -/
theorem test_cls : after 0x00E0#16 (withPixels [(0, 0), (63, 31)] R)
      (fun t => (t.pixel 0 0, t.pixel 63 31, t.pc)) = some (false, false, 0x0202#16) ∧
    after 0x0000#16 (withPixels [(5, 6)] (State.resetWith switched)) (fun t => t.pixel 5 6) = some false := by decide

/-- P5 (the origin wraps in both coordinates); P13, P14, P15 (the bounds of the sprite's bytes); D8: P6 with DRAW_WRAPS,
columns 64 to 67 come out as 0 to 3. -/
theorem test_drw_wrap_and_bounds :
    after 0xD122#16 { withMem 0x300 [0xC0, 0x40] (withV [(1, 0x46), (2, 0x21)] R) with i := 0x300#16 }
      (fun t => (t.pixel 6 1, t.pixel 7 1, t.pixel 6 2, t.pixel 7 2, t.getV 15)) =
        some (true, true, false, true, 0x00) ∧
    faultOf 0xD012#16 { withMem 0xFFF [0x80] R with i := 0x0FFF#16 } = some .memOutOfBounds ∧
    after 0xD011#16 { withMem 0xFFF [0x80] R with i := 0x0FFF#16 } (fun t => t.pixel 0 0) = some true ∧
    after 0xD010#16 { withV [(15, 1)] R with i := 0x2000#16 } (State.getV · 15) = some 0x00 ∧
    after 0xD121#16 { withMem 0x300 [0xFF] (withV [(1, 0x3C)] (State.resetWith switched)) with i := 0x300#16 }
      (fun t => (t.pixel 63 0, t.pixel 0 0, t.pixel 3 0, t.pixel 4 0)) = some (true, true, true, false) := by decide

/-- Pixel (0,0) set and a sprite byte 0x80, as in P4: the sprite's one bit lies on a set pixel. -/
def overSetPixel : State := { withPixels [(0, 0)] (withMem 0x300 [0x80] R) with i := 0x300#16 }

/-- P11: one pixel off, one on, with the Display calls in order. P4, and then by R122 the same draw again: it turns pixel
(0,0) on, clears nothing, and leaves VF 0 (log 5). The state it starts from is that of P3 with VF 1: nothing in it tells
a second draw from a first. W6: twice over a clear screen. -/
theorem test_drw_collision : (match tick (placeWord
      { withPixels [(0, 0)] (withMem 0x300 [0xA0] R) with i := 0x300#16 } 0xD121#16) with
    | .ok o => some (o.state.getV 15, o.calls)
    | .error _ => none) =
      some (0x01, [.displayPixel 0 0 false, .displayPixel 2 0 true]) ∧
    after 0xD011#16 overSetPixel (fun t => (t.pixel 0 0, t.getV 15)) = some (false, 0x01) ∧
    (after 0xD011#16 overSetPixel fun t => after 0xD011#16 { t with pc := 0x200#16 }
      fun u => (u.pixel 0 0, u.getV 15)) = some (some (true, 0x00)) ∧
    after 0xD011#16 overSetPixel (fun t => { t with pc := 0x200#16 }) =
      some (placeWord { withMem 0x300 [0x80] (withV [(15, 1)] R) with i := 0x300#16 } 0xD011#16) ∧
    (after 0xD012#16 { withMem 0x300 [0xF0, 0x90] (withV [(0, 0x0A), (1, 0x0A)] R) with i := 0x300#16 } fun t =>
      (t.pixel 13 11, t.getV 15, after 0xD012#16 t fun u => (u.pixel 13 11, u.getV 15))) =
      some (true, 0x00, some (false, 0x01)) := by decide

/-! ### Index register and memory -/

/-- X1. -/
theorem test_ldI : after 0xA123#16 R State.i = some 0x0123#16 := by decide

/-- X3 (no fault, VF untouched), X4 (16-bit wrap). -/
theorem test_addIVx : after 0xF31E#16 { withV [(3, 0x20), (15, 0x55)] R with i := 0x0FF0#16 }
      (fun t => (t.i, t.getV 15)) = some (0x1010#16, 0x55) ∧
    after 0xF31E#16 { withV [(3, 0x02)] R with i := 0xFFFF#16 } State.i = some 0x0001#16 := by decide

/-- X5, X7. -/
theorem test_ldF : after 0xF329#16 (withV [(3, 0x0A)] R) State.i = some 0x0082#16 ∧
    after 0xF329#16 (withV [(3, 0x1F)] R) State.i = some 0x009B#16 ∧
    after 0xF329#16 (withV [(3, 0x0A)] (State.resetWith switched)) State.i = some 0x0132#16 := by decide

/-- X8. -/
theorem test_ldB : after 0xF333#16 { withV [(3, 0xFE)] R with i := 0x300#16 }
    (fun t => Memory.getBlock t.mem 0x300 3) = some [0x02, 0x05, 0x04] := by decide

/-- X10, X11: the last place that fits. -/
theorem test_ldB_bounds : after 0xF333#16 { withV [(3, 0x64)] R with i := 0x0FFD#16 }
      (fun t => Memory.getBlock t.mem 0xFFD 3) = some [0x01, 0x00, 0x00] ∧
    faultOf 0xF333#16 { withV [(3, 0x64)] R with i := 0x0FFE#16 } = some .memOutOfBounds := by decide

/-- X14: `V3` is not stored. -/
theorem test_storeRegs : after 0xF255#16 { withV [(0, 1), (1, 2), (2, 3), (3, 4)] R with i := 0x300#16 }
    (fun t => (Memory.getBlock t.mem 0x300 4, t.i, t.pc)) = some ([1, 2, 3, 0], 0x300#16, 0x0202#16) := by decide

/-- X15, X16: the last place that fits. -/
theorem test_storeRegs_bounds : after 0xFF55#16 { withV [(0, 0xFF), (15, 0xFF)] R with i := 0x0FF0#16 }
      (fun t => (Memory.get t.mem 0xFF0, Memory.get t.mem 0xFFF)) = some (0xFF, 0xFF) ∧
    faultOf 0xFF55#16 { R with i := 0x0FF1#16 } = some .memOutOfBounds := by decide

/-- X17: `V3` is not loaded. -/
theorem test_loadRegs : after 0xF265#16 { withMem 0x300 [0x11, 0x22, 0x33, 0x44] (withV [(3, 0x99)] R) with i := 0x300#16 }
    (fun t => (t.getV 0, t.getV 1, t.getV 2, t.getV 3)) = some (0x11, 0x22, 0x33, 0x99) := by decide

/-- X19, X20, X21: no wrap of `I`. -/
theorem test_loadRegs_bounds : after 0xF065#16 { withMem 0xFFF [0x5A] R with i := 0x0FFF#16 } (State.getV · 0) =
      some 0x5A ∧
    faultOf 0xF065#16 { R with i := 0x1000#16 } = some .memOutOfBounds ∧
    faultOf 0xF065#16 { R with i := 0xFFFF#16 } = some .memOutOfBounds := by decide

/-! ### Timers and key-wait -/

/-- M1. -/
theorem test_ldVxDT : after 0xF307#16 { withV [(3, 0xFF)] R with dt := 0x3C } (State.getV · 3) = some 0x3C := by decide

/-- M2. -/
theorem test_ldDTVx : after 0xF315#16 (withV [(3, 0x3C)] R) State.dt = some 0x3C := by decide

/-- M3. -/
theorem test_ldSTVx : after 0xF318#16 (withV [(3, 0x02)] R) State.st = some 0x02 := by decide

/-- M5 and M6: whatever the keypad answers, one poll; no key holds `PC` and answers WAIT_KEY, a key goes on. -/
theorem test_ldVxK : after 0xF30A#16 (withV [(3, 0x77)] R) (fun t => (t.getV 3, t.pc)) =
      some (match (placeWord (withV [(3, 0x77)] R) 0xF30A#16).keyAnyAnswer with
        | none => (0x77, 0x0200#16)
        | some k => (k.setWidth 8, 0x0202#16)) ∧
    resultOf 0xF30A#16 (withV [(3, 0x77)] R) =
      some (if (placeWord (withV [(3, 0x77)] R) 0xF30A#16).keyAnyAnswer.isNone then .waitKey else .ok) := by
  refine ⟨?_, rfl⟩
  show some _ = some _
  cases (placeWord (withV [(3, 0x77)] R) 0xF30A#16).keyAnyAnswer <;> rfl

/-! ### Unknown opcodes -/

/-- U1. -/
theorem test_unknown : after 0x0000#16 { withV [(1, 0x11)] R with i := 0x0123#16, dt := 5, st := 6 }
    (fun t => (t.getV 1, t.i, t.dt, t.st, t.pc)) = some (0x11, 0x0123#16, 5, 6, 0x0202#16) := by decide

/-- U4, U5, K8, K19, A37: neighbours of defined words. -/
theorem test_unknown_neighbours : after 0x01E0#16 (withPixels [(0, 0)] R) (fun t => t.pixel 0 0) = some true ∧
    after 0x0FEE#16 oneEntry (fun t => (t.sp, t.pc)) = some (1, 0x0302#16) ∧
    after 0x5121#16 (withV [(1, 7), (2, 7)] R) State.pc = some 0x0202#16 ∧
    after 0xE59F#16 (withV [(5, 0x0A)] R) (fun t => (t.pc, t.portQueries)) = some (0x0202#16, 0) ∧
    after 0x8128#16 (withV [(1, 1), (2, 2), (15, 3)] R) (fun t => (t.getV 1, t.getV 15)) = some (1, 3) := by decide

/-! ### Host operations -/

/-- What is read off the state after one host operation. -/
def afterHost {α : Type} (op : HostOp) (s : State) (f : State → α) : Option α :=
  match hostStep op s with
  | .next t => some (f t)
  | .fault _ => none
  | .refused _ => none

/-- H1, H2, H3. -/
theorem test_timerDecrement : afterHost .timerDecrement { R with dt := 2 } (fun t => (t.dt, t.st)) = some (1, 0) ∧
    afterHost .timerDecrement R (fun t => (t.dt, t.st)) = some (0, 0) ∧
    afterHost .timerDecrement { R with dt := 1, st := 0xFF } (fun t => (t.dt, t.st)) = some (0, 0xFE) := by decide

/-- H5: after a fault, `Reset` gives the reset state. -/
theorem test_reset : hostStep .reset (placeWord { withV [(1, 9)] R with sp := 16, dt := 3 } 0x2300#16) = .next R := rfl

/-- H6. -/
theorem test_loadProgram : afterHost (.loadProgram [0x12, 0x02, 0x1F, 0xFF]) R (fun t => t.mem) =
    some [(0x200, 0x12), (0x201, 0x02), (0x202, 0x1F), (0x203, 0xFF)] := by decide

/-- `DebugWrite` of one byte and of one pixel. -/
theorem test_debugWrite : afterHost (.debugWrite (.mem 0xFFF#12 0x5A)) R (fun t => t.mem) = some [(0xFFF, 0x5A)] ∧
    afterHost (.debugWrite (.mem 0xFFF#12 0x00)) (withMem 0xFFF [0x5A] R) (fun t => t.mem) = some [] ∧
    afterHost (.debugWrite (.pixel 63 31 true)) R (fun t => (t.pixel 63 31, t.pixel 62 31)) = some (true, false) ∧
    hostStep (.debugWrite (.sp 17)) R = .refused .debugWriteOutsideType ∧
    hostStep (.debugWrite (.stack 16 0#16)) R = .refused .debugWriteOutsideType :=
  ⟨by decide, by decide, by decide, rfl, rfl⟩

/-! ### Witnesses: states and operands that meet the hypotheses of each obligation that has some

The name of a witness is the obligation's. Where an obligation has several clauses, each has its own conjunct, at the
boundary of its range. -/

theorem test_witness_DecodeInvertsEncode :
    ((Instr.unknown 0xFFFF#16).wf = true ∧ params.zeroGroupLoose = false) ∧
    ((Instr.ret).wf = true ∧ switched.zeroGroupLoose = true ∧ ∀ w, Instr.ret ≠ .unknown w) :=
  ⟨by decide, by decide, by decide, by simp⟩

/-- For the statements on exact matching of group 0. -/
theorem test_witness_UnknownWordsMatchNoRow : params.zeroGroupLoose = false := rfl

theorem test_witness_OpcodeRowsNeverOverlap : (⟨0xF000, 0x1000⟩ : OpcodeRow) ∈ definedRows ∧
    (⟨0xF000, 0x1000⟩ : OpcodeRow).accepts 0x1ABC#16 = true := by decide

theorem test_witness_UndefinedGroupWords : 0x0E1#12 ≠ 0x0E0#12 ∧ 0x0E1#12 ≠ 0x0EE#12 := by decide

theorem test_witness_FetchIsBigEndianAndBounded : ({ R with pc := 4094#16 } : State).pc.toNat ≤ 4094 ∧
    ({ R with pc := 4095#16 } : State).pc.toNat > 4094 := by decide

/-- The last place an instruction can stand. -/
def lastWord : State := placeWord { R with pc := 4094#16 } 0x2FFE#16

theorem test_witness_StepRunsDecodedInstruction : lastWord.pc.toNat ≤ 4094 ∧ (Instr.call 0xFFE#12).wf = true ∧
    decode (Memory.get lastWord.mem lastWord.pc.toNat ++ Memory.get lastWord.mem (lastWord.pc.toNat + 1)) =
      .call 0xFFE#12 := by decide

theorem test_witness_PlacedWordRunsNext : R.pc.toNat ≤ 4094 := by decide

theorem test_witness_TickFollowsProcedure : ({ R with pc := 4095#16 } : State).pc.toNat > 4094 ∧
    (∀ sp : Fin 17, ({ lastWord with sp := sp } : State).pc.toNat ≤ 4094 ∧
      decode (Memory.get ({ lastWord with sp := sp } : State).mem 4094 ++
        Memory.get ({ lastWord with sp := sp } : State).mem 4095) = .call 0xFFE#12) ∧
    fatalCondition (.call 0xFFE#12) { lastWord with sp := 16 } = some .stackOverflow ∧
    fatalCondition (.call 0xFFE#12) { lastWord with sp := 15 } = none := by decide

theorem test_witness_FaultsArePrecise :
    tick (placeWord R 0x00EE#16) =
      .ok { result := .faultStackUnderflow, state := placeWord R 0x00EE#16, calls := [] } ∧
    TickResult.faultStackUnderflow.isFatal = true := ⟨rfl, rfl⟩

theorem test_witness_JumpSetsPc : ∃ nnn : Imm12, nnn = 0xFFF#12 := ⟨0xFFF#12, rfl⟩

theorem test_witness_CallPushesReturnAddress :
    (StackShaped { R with sp := 15 } ∧ ({ R with sp := 15 } : State).sp < R.config.stackCapacity) ∧
    (StackShaped oneSlot ∧ oneSlot.sp < oneSlot.config.stackCapacity) ∧
    ({ R with sp := 16 } : State).sp = R.config.stackCapacity := by unfold StackShaped; decide

theorem test_witness_ReturnPopsIntoPc : ({ R with sp := 16 } : State).sp = 15 + 1 ∧ oneEntry.sp = 0 + 1 ∧
    R.sp = 0 := by decide

theorem test_witness_CallThenReturnComesBack : StackShaped { R with sp := 15 } ∧
    ({ R with sp := 15 } : State).sp < R.config.stackCapacity := by unfold StackShaped; decide

theorem test_witness_JumpAddsV0 : (0xF00#12).toNat + ((withV [(0, 0xFF)] R).getV 0#4).toNat > 4094 := by decide

/-- For the clauses on `x ≠ 15` of the immediate addition and of the flag-setting instructions. -/
theorem test_witness_destinationIsNotFlag : (0#4 : Nibble) ≠ 15#4 := by decide

theorem test_witness_DrawXorsSprite :
    ((0#4).toNat = 0 ∨ ({ R with i := 0xFFFF#16 } : State).i.toNat + (0#4).toNat - 1 ≤ 4095) ∧
    ({ R with i := 4095#16 } : State).i.toNat + (1#4).toNat - 1 ≤ 4095 ∧
    ((2#4).toNat ≥ 1 ∧ ({ R with i := 4095#16 } : State).i.toNat + (2#4).toNat - 1 > 4095) := by
  decide

/-- A screen, a sprite byte 0xA0 and `I` on it, as in P11. -/
def drawState : State := { withPixels [(0, 0)] (withMem 0x300 [0xA0] R) with i := 0x300#16 }

/-- The sprite meets a set pixel, and a clear one; a blank sprite meets none. -/
theorem test_witness_DrawXorsSprite_collision :
    (spriteCovers drawState 0 0 1 0 0 = true ∧ drawState.pixel 0 0 = true) ∧
    ¬ (∃ px py, spriteCovers R 0 0 0 px py = true ∧ R.pixel px py = true) := by
  refine ⟨by decide, ?_⟩
  rintro ⟨px, py, _, h⟩
  simp [State.pixel, Screen.pixel, State.reset, State.resetWith] at h

/-- A sprite with a bit on a clear pixel, and one whose only bit lies on a set one. -/
theorem test_witness_DrawTwiceRestores : (0#4 : Nibble) ≠ 15#4 ∧ (∃ t, exec (.drw 0 0 1) drawState = .next t) ∧
    (spriteCovers drawState 0 0 1 2 0 = true ∧ drawState.pixel 2 0 = false) ∧
    (∃ t, exec (.drw 0 0 1) overSetPixel = .next t) ∧
    ¬ (∃ px py, spriteCovers overSetPixel 0 0 1 px py = true ∧ overSetPixel.pixel px py = false) :=
  ⟨by decide, ⟨_, rfl⟩, by decide, ⟨_, rfl⟩, fun ⟨px, py, h, hp⟩ => by
    have hb : ∀ j : Fin 8, (0x80#8).getLsbD (7 - j.val) = true → j.val = 0 := by decide
    have hm : Memory.get overSetPixel.mem 0x300 = 0x80#8 := by decide
    have hx : (overSetPixel.getV 0).toNat = 0 := by decide
    have hw : overSetPixel.config.drawWraps = false := rfl
    have hi : overSetPixel.i.toNat = 0x300 := rfl
    have hn : (1 : Nibble).toNat = 1 := rfl
    simp only [spriteCovers, offsetFromOrigin, hx, hw, hi, hn, Nat.zero_mod, Nat.zero_le, Bool.false_eq_true, if_false,
      if_true, Nat.sub_zero, Bool.and_eq_true, decide_eq_true_eq] at h
    obtain ⟨⟨h1, h2⟩, h3⟩ := h
    have hy : py.val = 0 := by omega
    rw [hy, Nat.add_zero, hm] at h3
    have e1 : px = 0 := Fin.ext (hb ⟨px.val, h1⟩ h3)
    have e2 : py = 0 := Fin.ext hy
    subst e1 e2
    exact absurd hp (by decide)⟩

theorem test_witness_DecimalDigitsAtI : ({ R with i := 4093#16 } : State).i.toNat + 2 ≤ 4095 ∧
    ({ R with i := 4094#16 } : State).i.toNat + 2 > 4095 := by decide

/-- For the store and for the load. -/
theorem test_witness_StoreRegistersAtI : ({ R with i := 4080#16 } : State).i.toNat + (15#4).toNat ≤ 4095 ∧
    ({ R with i := 4080#16 } : State).i.toNat + (0#4).toNat ≤ 4095 ∧
    ({ R with i := 4081#16 } : State).i.toNat + (15#4).toNat > 4095 ∧
    (∃ r : Nibble, r.toNat ≤ (0#4).toNat) := ⟨by decide, by decide, by decide, ⟨0#4, by decide⟩⟩

theorem test_witness_StoreThenLoadRestores : ∃ t u : State, exec (.storeRegs 3#4) (withV [(0, 0xDE), (3, 0xEF)] R) = .next t ∧
    u.i = (withV [(0, 0xDE), (3, 0xEF)] R).i ∧ u.mem = t.mem :=
  ⟨_, withMem 0 [0xDE, 0x00, 0x00, 0xEF] R, rfl, rfl, rfl⟩

theorem test_witness_IndexSurvivesAccess : (∃ t, exec (.ldB 0#4) R = .next t) ∧
    (∃ t, exec (.storeRegs 15#4) R = .next t) ∧ (∃ t, exec (.loadRegs 15#4) R = .next t) ∧
    (∃ t, exec (.drw 0 0 15) R = .next t) := ⟨⟨_, rfl⟩, ⟨_, rfl⟩, ⟨_, rfl⟩, ⟨_, rfl⟩⟩

theorem test_witness_StoreIsSeenByNextFetch : ({ R with i := 0x202#16 } : State).i.toNat + (1#4).toNat ≤ 4095 ∧
    (0#4).toNat + 1 ≤ (1#4).toNat ∧
    (({ R with i := 0x202#16 } : State).pc + 2).toNat = ({ R with i := 0x202#16 } : State).i.toNat + (0#4).toNat := by
  decide

theorem test_witness_KeyWaitHoldsUntilKey :
    fetchWord (placeWord R 0xF30A#16) = some (0xF#4 ++ 0x3#4 ++ 0x0A#8) := by decide

theorem test_witness_UnknownOpcodeOnlyAdvances : isDefinedWord 0x5121#16 = false ∧
    fetchWord (placeWord R 0x5121#16) = some 0x5121#16 := by decide

theorem test_witness_WritesStayInAccessTable : ∃ t, exec (.loadRegs 15#4) R = .next t := ⟨_, rfl⟩

/-- A memory that lists bytes, and a step of it. -/
theorem test_witness_StepKeepsForms : MemoryCanonical (placeWord R 0xF055#16) ∧
    StackShaped (placeWord R 0xF055#16) ∧
    ∃ t, step (placeWord R 0xF055#16) = .next t :=
  ⟨by unfold MemoryCanonical; decide, by unfold StackShaped; decide, _, rfl⟩

theorem test_witness_SystemKeepsForms : MemoryCanonical R ∧ StackShaped R ∧
    ∃ t, systemRun [.host (.loadProgram [0x60, 0x05]), .tick, .host .timerDecrement] R = .next t :=
  ⟨by unfold MemoryCanonical; decide, by unfold StackShaped; decide, _, rfl⟩

theorem test_witness_PcNeverReachesWrap : AddressesBounded (placeWord R 0xBFFF#16) ∧
    ∃ t, step (placeWord R 0xBFFF#16) = .next t :=
  ⟨⟨by decide, fun a ha => by rw [List.eq_of_mem_replicate ha]; decide⟩, _, rfl⟩

theorem test_witness_ResetStateValues : oneSlot = State.resetWith { params with stackCapacity := 1 } ∧
    (lastWord.config = params ∧ ∃ t, hostStep .reset lastWord = .next t) := ⟨rfl, rfl, _, rfl⟩

theorem test_witness_TimerDecrementSaturates : (∃ t, exec .cls R = .next t) ∧ (∀ x, Instr.cls ≠ .ldDTVx x) ∧
    (∀ x, Instr.cls ≠ .ldSTVx x) := ⟨⟨_, rfl⟩, by simp, by simp⟩

theorem test_witness_LoadsPlaceBytes : (List.replicate 80 0x5A#8).length = 80 ∧
    (List.replicate 79 0x5A#8).length ≠ 80 ∧ (List.replicate 3584 0x5A#8).length ≤ 3584 ∧
    (List.replicate 3585 0x5A#8).length > 3584 :=
  ⟨List.length_replicate, by rw [List.length_replicate]; decide, by rw [List.length_replicate],
    by rw [List.length_replicate]; decide⟩

/-- The font that just fits, and the one that does not; the ends of the types of `SP` and of a slot number. -/
theorem test_witness_LoadsPlaceBytes_bounds :
    (State.resetWith { params with fontBase := 4016#12 }).config.fontBase.toNat + 79 ≤ 4095 ∧
    (State.resetWith { params with fontBase := 4017#12 }).config.fontBase.toNat + 79 > 4095 ∧
    17 > R.config.stackCapacity ∧ 16 ≥ R.config.stackCapacity := by decide

theorem test_witness_DebugWriteSetsOneElement : 16 ≤ R.config.stackCapacity ∧ StackShaped R ∧
    15 < R.config.stackCapacity := by unfold StackShaped; decide

/-- Two states that differ in a stale slot only. -/
theorem test_witness_StaleSlotsHaveNoEffect : SameButStaleSlots R { R with stack := oneEntry.stack } :=
  ⟨rfl, rfl, fun k hk => absurd hk (Nat.not_lt_zero k)⟩

theorem test_witness_SoundTimerIsNeverRead : ∀ x, Instr.cls ≠ .ldSTVx x := by intro x; simp

theorem test_witness_SelfJumpIsFixpoint : SelfJump (placeWord R 0x1200#16) := by unfold SelfJump; decide

theorem test_witness_ParametersFollowDecisions :
    fetchWord (placeWord R 0x2FFE#16) = some (0x2#4 ++ 0xFFE#12) ∧
    fetchWord (placeWord R 0xF329#16) = some (0xF#4 ++ 0x3#4 ++ 0x29#8) ∧ switched.drawWraps = true ∧
    (State.resetWith switched).config.zeroGroupLoose = true ∧
    fetchWord (placeWord (State.resetWith switched) 0x0120#16) = some (0x0#4 ++ 0x1#4 ++ 0x2#4 ++ 0x0#4) ∧
    fetchWord (placeWord (State.resetWith switched) 0x012E#16) = some (0x0#4 ++ 0x1#4 ++ 0x2#4 ++ 0xE#4) := by decide

/-- For the clauses of the shifts on the field `y`. -/
theorem test_witness_ShiftRightSetsFlag : R.config.shiftUsesVy = false ∧ (0#4 : Nibble) ≠ 15#4 := by decide

end Sys2Proof.Tests
end

section
/-! SUPPORT. Proofs for the scope of the model (00_scope.md): one step through fetch and decode, when an instruction
faults, the glyph address and the wrapped sprite pixel in numbers; then the parameters of the core. -/

namespace Sys2Proof.Machine

/-! ### One step through fetch and decode -/

/-- A step executes what the fetched word decodes to under the configuration of the state (R73). -/
theorem step_eq_exec {s : State} {w : Word} {i : Instr} (hf : fetchWord s = some w)
    (hd : decodeWith s.config w = i) : step s = exec i s := by
  rw [step, hf, ← hd]

theorem decodeWith_call (p : Config.Params) (nnn : Imm12) : decodeWith p (formatNNN 0x2#4 nnn) = .call nnn := by
  simp [decodeWith]

theorem decodeWith_ldF (p : Config.Params) (x : Nibble) : decodeWith p (formatXNN 0xF#4 x 0x29#8) = .ldF x := by
  simp [decodeWith, decodeGroupF]

theorem decodeWith_loose_cls (p : Config.Params) (a b : Nibble) (hp : p.zeroGroupLoose = true) :
    decodeWith p (formatXYN 0x0#4 a b 0x0#4) = .cls := by
  simp [decodeWith, decodeGroup0, hp]

/-- `n4 = E` is not the last nibble of `00E0`, so the row of CLS does not take the word first (D12). -/
theorem decodeWith_loose_ret (p : Config.Params) (a b : Nibble) (hp : p.zeroGroupLoose = true) :
    decodeWith p (formatXYN 0x0#4 a b 0xE#4) = .ret := by
  have hne : formatXYN 0x0#4 a b 0xE#4 ≠ 0x00E0#16 := by
    intro h
    have hn : (0xE#4 : Nibble) = nibble4 0x00E0#16 := by rw [← h, nibble4_formatXYN]
    exact absurd hn (by decide)
  simp [decodeWith, decodeGroup0, hp, hne]

/-! ### Faults, the glyph address, the wrapped pixel -/

/-- An instruction faults exactly with the fatal condition it meets (R161 to R165). -/
theorem exec_fault_iff (i : Instr) (s : State) (f : Fault) :
    exec i s = .fault f ↔ fatalCondition i s = some f := by
  obtain ⟨hn, t, ht⟩ | ⟨g, hg, he⟩ := exec_completes_or_faults i s
  · simp [hn, ht]
  · simp [hg, he]

theorem toNat_lowNibble (s : State) (x : Nibble) : (s.lowNibble x).toNat = (s.getV x).toNat % 16 := by
  simp [State.lowNibble]

/-- The glyph address never wraps: FONT_BASE is below 2^12 and a digit below 16 (R132). -/
theorem toNat_glyphAddress (s : State) (d : Nibble) :
    (s.glyphAddress d).toNat = s.config.fontBase.toNat + 5 * d.toNat := by
  have hb := s.config.fontBase.isLt
  have hd := d.isLt
  have hlt : s.config.fontBase.toNat + 5 * d.toNat < 2 ^ 16 := by omega
  rw [State.glyphAddress, BitVec.toNat_ofNat]
  exact Nat.mod_eq_of_lt hlt

/-- With DRAW_WRAPS no sprite bit is dropped (D8). -/
theorem spritePixel_of_drawWraps (p : Config.Params) (x0 y0 i j : Nat) (hp : p.drawWraps = true) :
    spritePixel p x0 y0 i j = some (Fin.ofNat 64 (x0 + j), Fin.ofNat 32 (y0 + i)) := by
  simp [spritePixel, hp]

/-! ### The parameters -/

/-- Settles O60: each clause is the step through fetch and decode, then the one operation that reads the parameter. -/
theorem parametersFollowDecisions : Obligations.ParametersFollowDecisions := by
  refine ⟨rfl, fun s nnn hf => ?overflow, fun s x hf => ?glyph, fun p x0 y0 i j hp => ?wrap,
    fun s a b hp => ⟨fun hf => ?cls, fun hf => ?ret⟩⟩
  case overflow =>
    rw [step_eq_exec hf (decodeWith_call s.config nnn), exec_fault_iff]
    simp [fatalCondition]
  case glyph =>
    refine ⟨_, step_eq_exec hf (decodeWith_ldF s.config x), ?_⟩
    rw [← toNat_lowNibble]
    exact toNat_glyphAddress s (s.lowNibble x)
  case wrap => exact ⟨_, spritePixel_of_drawWraps p x0 y0 i j hp, rfl, rfl⟩
  case cls => exact step_eq_exec hf (decodeWith_loose_cls s.config a b hp)
  case ret => exact step_eq_exec hf (decodeWith_loose_ret s.config a b hp)

end Sys2Proof.Machine
end

section
/-! SUPPORT. Proofs for the state (10_state.md): what an instruction that completes may have written (R32), how it moves
control and the stack, what it does to memory, and what it does not read; then the reset state. -/

namespace Sys2Proof.Machine

/-! ### Instructions that can fault -/

/-- An answer that is a next state under a condition and a fault otherwise is a next state only under the condition. -/
theorem next_of_guard {c : Prop} [Decidable c] {u t : State} {f : Fault}
    (h : (if c then .next u else raise f) = (.next t : Host.Outcome State Fault Refusal)) : c ∧ t = u := by
  split at h
  · exact ⟨‹c›, (Host.Outcome.next.inj h).symm⟩
  · cases h

/-- CALL as one guarded answer (R82, R161). -/
theorem exec_call (nnn : Imm12) (s : State) : exec (.call nnn) s =
    if s.sp ≠ s.config.stackCapacity then
      .next (State.jumpTo { s with stack := s.stack.set s.sp (s.pc + 2), sp := s.sp + 1 } (zext12 nnn))
    else raise .stackOverflow := by
  by_cases h : s.sp = s.config.stackCapacity <;> simp [exec, execCall, State.push, h]

/-- RET as one guarded answer (R83, R162). -/
theorem exec_ret (s : State) : exec .ret s =
    if s.sp ≠ 0 then .next (State.jumpTo { s with sp := s.sp - 1 } (s.slot (s.sp - 1))) else raise .stackUnderflow := by
  by_cases h : s.sp = 0 <;> simp [exec, execRet, State.pop, h]

/-- A step that completes has fetched inside `MEM` and is the execution of some instruction (R61, R73). -/
theorem exec_of_step_next {s t : State} (h : step s = .next t) : s.pc.toNat ≤ 4094 ∧ ∃ i, exec i s = .next t := by
  by_cases hpc : s.pc.toNat ≤ 4094
  · rw [step, fetchWord_inBounds s hpc] at h
    exact ⟨hpc, _, h⟩
  · rw [step, fetchWord_outOfBounds s (by omega)] at h
    cases h

/-! ### Updates inside a footprint -/

theorem Frame.refl (f : Footprint) (s : State) : Frame f s s :=
  ⟨fun _ _ => rfl, fun _ => rfl, fun _ => ⟨rfl, rfl⟩, fun _ => rfl, fun _ => rfl, fun _ _ _ => rfl, fun _ _ => rfl,
    fun _ => rfl, rfl⟩

section frame
variable {f : Footprint} {s t : State} (h : Frame f s t)
include h

theorem Frame.advance : Frame f s t.advance := h

theorem Frame.skip (c : Bool) : Frame f s (t.skip c) := h

theorem Frame.jumpTo (a : Word) : Frame f s (t.jumpTo a) := h

theorem Frame.setV {r : Nibble} (hr : r ∈ f.regs) (b : Byte) : Frame f s (t.setV r b) := by
  obtain ⟨hv, hrest⟩ := h
  refine ⟨fun q hq => ?_, hrest⟩
  have hne : q ≠ r := fun e => hq (e ▸ hr)
  rw [getV_setV, if_neg hne, hv q hq]

theorem Frame.setResultAndFlag {x : Nibble} (hx : x ∈ f.regs) (hf : flagReg ∈ f.regs) (a b : Byte) :
    Frame f s (t.setResultAndFlag x a b) := (h.setV hx a).setV hf b

/-- A block load writes the registers `V[k]`, `V[k+1]`, ... and no other (R135). -/
theorem Frame.setVFrom (bs : List Byte) (k : Nat) (hr : ∀ j, k ≤ j → j < k + bs.length → BitVec.ofNat 4 j ∈ f.regs) :
    Frame f s (t.setVFrom k bs) := by
  induction bs generalizing t k with
  | nil => exact h
  | cons b bs ih =>
    simp only [List.length_cons] at hr
    exact ih (h.setV (hr k (by omega) (by omega)) b) (k + 1) fun j hj hl => hr j (by omega) (by omega)

theorem Frame.queried (hf : f.ports = true) : Frame f s t.queried := by
  obtain ⟨hv, hi, hstack, hdt, hst, hfb, hmem, -, hconfig⟩ := h
  exact ⟨hv, hi, hstack, hdt, hst, hfb, hmem, by simp [hf], hconfig⟩

theorem Frame.setI (hf : f.i = true) (w : Word) : Frame f s { t with i := w } := by
  obtain ⟨hv, -, hrest⟩ := h
  exact ⟨hv, by simp [hf], hrest⟩

theorem Frame.setStack (hf : f.stack = true) (l : List Word) (n : Nat) :
    Frame f s { t with stack := l, sp := n } := by
  obtain ⟨hv, hi, -, hrest⟩ := h
  exact ⟨hv, hi, by simp [hf], hrest⟩

theorem Frame.setDT (hf : f.dt = true) (b : Byte) : Frame f s { t with dt := b } := by
  obtain ⟨hv, hi, hstack, -, hrest⟩ := h
  exact ⟨hv, hi, hstack, by simp [hf], hrest⟩

theorem Frame.setST (hf : f.st = true) (b : Byte) : Frame f s { t with st := b } := by
  obtain ⟨hv, hi, hstack, hdt, -, hrest⟩ := h
  exact ⟨hv, hi, hstack, hdt, by simp [hf], hrest⟩

theorem Frame.setScreen (hf : f.screen = true) (fb : Screen) : Frame f s { t with fb := fb } := by
  obtain ⟨hv, hi, hstack, hdt, hst, -, hrest⟩ := h
  exact ⟨hv, hi, hstack, hdt, hst, by simp [hf], hrest⟩

/-- A block write stays inside a footprint that holds its addresses (R43). -/
theorem Frame.setBlock (bs : List Byte) (a : Nat) (hf : ∀ k, k < bs.length → a + k ∈ f.mem) :
    Frame f s { t with mem := Memory.setBlock t.mem a bs } := by
  obtain ⟨hv, hi, hstack, hdt, hst, hfb, hmem, hrest⟩ := h
  refine ⟨hv, hi, hstack, hdt, hst, hfb, fun k hk => ?_, hrest⟩
  have hout : k < a ∨ a + bs.length ≤ k := by
    by_contra hin
    have := hf (k - a) (by omega)
    rw [show a + (k - a) = k by omega] at this
    exact hk this
  rw [memory_get_setBlock_outside bs t.mem a k hout, hmem k hk]

end frame

/-- The addresses a block of `n` bytes at `I` covers (R137). -/
theorem mem_addressesAtI (s : State) {n k : Nat} (h : k < n) : s.i.toNat + k ∈ addressesAtI s n :=
  List.mem_map_of_mem (List.mem_range.2 h)

/-! ### The access table -/

/-- Settles O48: each instruction is a chain of updates, each inside the footprint its row of R32 gives it. -/
theorem writesStayInAccessTable : Obligations.WritesStayInAccessTable := by
  intro i s t h
  have start := Frame.refl (writeSet i s) s
  cases i with
  | jp | jpV0 => obtain rfl := Host.Outcome.next.inj h; exact start.jumpTo _
  | seImm | sneImm | seReg | sneReg => obtain rfl := Host.Outcome.next.inj h; exact start.skip _
  | unknown => obtain rfl := Host.Outcome.next.inj h; exact start.advance
  | skp | sknp => obtain rfl := Host.Outcome.next.inj h; exact (start.queried rfl).skip _
  | ldImm | addImm | ldReg | orReg | andReg | xorReg | ldVxDT =>
    obtain rfl := Host.Outcome.next.inj h
    exact (start.setV (List.mem_singleton_self _) _).advance
  | addReg | subReg | subnReg | shr | shl =>
    obtain rfl := Host.Outcome.next.inj h
    exact (start.setResultAndFlag (by simp [writeSet]) (by simp [writeSet]) _ _).advance
  | rnd =>
    obtain rfl := Host.Outcome.next.inj h
    exact ((start.queried rfl).setV (List.mem_singleton_self _) _).advance
  | ldVxK =>
    obtain rfl := Host.Outcome.next.inj h
    split
    · exact start.queried rfl
    · exact ((start.queried rfl).setV (List.mem_singleton_self _) _).advance
  | ldI | addIVx | ldF => obtain rfl := Host.Outcome.next.inj h; exact (start.setI rfl _).advance
  | ldDTVx => obtain rfl := Host.Outcome.next.inj h; exact (start.setDT rfl _).advance
  | ldSTVx => obtain rfl := Host.Outcome.next.inj h; exact (start.setST rfl _).advance
  | cls => obtain rfl := Host.Outcome.next.inj h; exact (start.setScreen rfl _).advance
  | call nnn =>
    rw [exec_call] at h
    obtain ⟨-, rfl⟩ := next_of_guard h
    exact (start.setStack rfl _ _).jumpTo _
  | ret =>
    rw [exec_ret] at h
    obtain ⟨-, rfl⟩ := next_of_guard h
    exact (start.setStack rfl _ _).jumpTo _
  | drw x y n =>
    obtain ⟨-, rfl⟩ := next_of_guard h
    exact ((start.setScreen rfl _).setV (List.mem_singleton_self _) _).advance
  | ldB x =>
    obtain ⟨-, rfl⟩ := next_of_guard h
    exact (start.setBlock (decimalDigits _) _ fun k hk => mem_addressesAtI s hk).advance
  | storeRegs x =>
    obtain ⟨-, rfl⟩ := next_of_guard h
    exact (start.setBlock _ _ fun k hk => mem_addressesAtI s (length_registersTo s x ▸ hk)).advance
  | loadRegs x =>
    obtain ⟨-, rfl⟩ := next_of_guard h
    refine (start.setVFrom _ 0 fun j _ hj => ?_).advance
    rw [length_getBlock, Nat.zero_add] at hj
    exact List.mem_map_of_mem (List.mem_range.2 hj)

/-! ### Where control goes, and what happens to the stack -/

/-- What an instruction does to `PC` and the stack together: it goes on in line, jumps, calls or returns (R20 to R22,
R81 to R84). -/
inductive ControlFlow (s t : State) : Prop where
  | inline (d : Word) (hd : d.toNat ≤ 4) (hpc : t.pc = s.pc + d) (hsp : t.sp = s.sp) (hstack : t.stack = s.stack)
  | jump (hpc : t.pc.toNat ≤ 0x10FE) (hsp : t.sp = s.sp) (hstack : t.stack = s.stack)
  | call (hpc : t.pc.toNat ≤ 0xFFF) (hroom : s.sp ≠ s.config.stackCapacity) (hsp : t.sp = s.sp + 1)
      (hstack : t.stack = s.stack.set s.sp (s.pc + 2))
  | ret (hpc : t.pc = s.slot (s.sp - 1)) (hsp : t.sp = s.sp - 1) (hstack : t.stack = s.stack)

theorem toNat_zext12_le (a : Imm12) : (zext12 a).toNat ≤ 0xFFF := by
  have := a.isLt
  rw [BitVec.toNat_setWidth]
  omega

/-- The sum of `Bnnn` is at most 0xFFF + 0xFF (R21, R84). -/
theorem toNat_zext12_add_zext8_le (a : Imm12) (b : Byte) : (zext12 a + zext8 b).toNat ≤ 0x10FE := by
  have := a.isLt
  have := b.isLt
  rw [BitVec.toNat_add, BitVec.toNat_setWidth, BitVec.toNat_setWidth]
  omega

/-- Every instruction that completes moves control in one of the four ways. -/
theorem exec_controlFlow {i : Instr} {s t : State} (h : exec i s = .next t) : ControlFlow s t := by
  have skip_le : ∀ c : Bool, (if c then 4 else 2 : Word).toNat ≤ 4 := by decide
  cases i with
  | jp nnn =>
    obtain rfl := Host.Outcome.next.inj h
    exact .jump (Nat.le_trans (toNat_zext12_le nnn) (by omega)) rfl rfl
  | jpV0 nnn =>
    obtain rfl := Host.Outcome.next.inj h
    exact .jump (toNat_zext12_add_zext8_le nnn _) rfl rfl
  | call nnn =>
    rw [exec_call] at h
    obtain ⟨hroom, rfl⟩ := next_of_guard h
    exact .call (toNat_zext12_le nnn) hroom rfl rfl
  | ret =>
    rw [exec_ret] at h
    obtain ⟨-, rfl⟩ := next_of_guard h
    exact .ret rfl rfl rfl
  | seImm | sneImm | seReg | sneReg | skp | sknp =>
    obtain rfl := Host.Outcome.next.inj h
    exact .inline _ (skip_le _) rfl rfl rfl
  | ldVxK x =>
    obtain rfl := Host.Outcome.next.inj h
    split
    · exact .inline 0 (by decide) (BitVec.add_zero _).symm rfl rfl
    · exact .inline 2 (by decide) rfl rfl rfl
  | drw | ldB | storeRegs =>
    obtain ⟨-, rfl⟩ := next_of_guard h
    exact .inline 2 (by decide) rfl rfl rfl
  | loadRegs x =>
    obtain ⟨-, rfl⟩ := next_of_guard h
    exact .inline 2 (by decide) (by simp) (by simp) (by simp)
  | cls | ldImm | addImm | ldReg | orReg | andReg | xorReg | addReg | subReg | shr | subnReg | shl | ldI | rnd
  | ldVxDT | ldDTVx | ldSTVx | addIVx | ldF | unknown =>
    obtain rfl := Host.Outcome.next.inj h
    exact .inline 2 (by decide) rfl rfl rfl

/-! ### The canonical memory and the shape of the stack -/

/-- An instruction that completes leaves memory alone, or writes one block at `I` inside `MEM` (R133, R134). -/
theorem exec_memory {i : Instr} {s t : State} (h : exec i s = .next t) : t.mem = s.mem ∨
    ∃ bs : List Byte, s.i.toNat + bs.length ≤ 4096 ∧
      t.mem = Memory.setBlock s.mem s.i.toNat bs := by
  cases i with
  | ldB x =>
    obtain ⟨hb, rfl⟩ := next_of_guard h
    rw [blockInBounds_iff] at hb
    exact .inr ⟨decimalDigits (s.getV x), by rw [length_decimalDigits]; omega, rfl⟩
  | storeRegs x =>
    obtain ⟨hb, rfl⟩ := next_of_guard h
    rw [blockInBounds_iff] at hb
    exact .inr ⟨s.registersTo x, by rw [length_registersTo]; omega, rfl⟩
  | call nnn =>
    rw [exec_call] at h
    obtain ⟨-, rfl⟩ := next_of_guard h
    exact .inl rfl
  | ret =>
    rw [exec_ret] at h
    obtain ⟨-, rfl⟩ := next_of_guard h
    exact .inl rfl
  | drw x y n =>
    obtain ⟨-, rfl⟩ := next_of_guard h
    exact .inl rfl
  | loadRegs x =>
    obtain ⟨-, rfl⟩ := next_of_guard h
    exact .inl (by simp)
  | ldVxK x =>
    obtain rfl := Host.Outcome.next.inj h
    refine .inl ?_
    split <;> rfl
  | cls | jp | seImm | sneImm | seReg | ldImm | addImm | ldReg | orReg | andReg | xorReg | addReg | subReg | shr
  | subnReg | shl | sneReg | ldI | jpV0 | rnd | skp | sknp | ldVxDT | ldDTVx | ldSTVx | addIVx | ldF | unknown =>
    obtain rfl := Host.Outcome.next.inj h
    exact .inl rfl

/-- No instruction changes the configuration (R6): it is outside every footprint. -/
theorem exec_config {i : Instr} {s t : State} (h : exec i s = .next t) : t.config = s.config := by
  obtain ⟨-, -, -, -, -, -, -, -, hconfig⟩ := writesStayInAccessTable i s t h
  exact hconfig

theorem exec_keeps_memoryCanonical {i : Instr} {s t : State} (h : exec i s = .next t) (hs : MemoryCanonical s) :
    MemoryCanonical t := by
  unfold MemoryCanonical
  obtain hm | ⟨bs, hb, hm⟩ := exec_memory h
  · rw [hm]; exact hs
  · rw [hm]; exact memory_wf_setBlock bs s.mem _ hs hb

theorem exec_keeps_stackShaped {i : Instr} {s t : State} (h : exec i s = .next t) (hs : StackShaped s) :
    StackShaped t := by
  obtain ⟨hlen, hle⟩ := hs
  unfold StackShaped
  rw [exec_config h]
  cases exec_controlFlow h with
  | inline _ _ _ hsp hstack => rw [hsp, hstack]; exact ⟨hlen, hle⟩
  | jump _ hsp hstack => rw [hsp, hstack]; exact ⟨hlen, hle⟩
  | call _ hroom hsp hstack => rw [hsp, hstack, List.length_set]; exact ⟨hlen, by omega⟩
  | ret _ hsp hstack => rw [hsp, hstack]; exact ⟨hlen, by omega⟩

/-- Settles O49: every instruction keeps each form, so the one the step runs does. -/
theorem stepKeepsForms : Obligations.StepKeepsForms := by
  intro s t h
  obtain ⟨-, i, hi⟩ := exec_of_step_next h
  exact ⟨exec_keeps_memoryCanonical hi, exec_keeps_stackShaped hi⟩

/-! ### The bounds of the addresses -/

/-- Every slot is in bounds, a number past the slots too, which reads 0. -/
theorem slot_le {s : State} {b : Nat} (h : ∀ a ∈ s.stack, a.toNat ≤ b) (k : Nat) : (s.slot k).toNat ≤ b := by
  unfold State.slot
  by_cases hk : k < s.stack.length
  · rw [List.getD_eq_getElem _ _ hk]
    exact h _ (List.getElem_mem hk)
  · rw [List.getD_eq_default _ _ (by omega)]
    exact Nat.zero_le b

/-- Settles O51: a step fetches at 4094 or below, so in line `PC` is at most 4098 and a return address at most 4096. -/
theorem pcNeverReachesWrap : Obligations.PcNeverReachesWrap := by
  rintro s t ⟨-, hslots⟩ h
  obtain ⟨hfetch, i, hi⟩ := exec_of_step_next h
  unfold AddressesBounded
  cases exec_controlFlow hi with
  | inline d hd hpc _ hstack =>
    rw [hpc, hstack, BitVec.toNat_add]
    exact ⟨by omega, hslots⟩
  | jump hpc _ hstack => exact ⟨hpc, hstack ▸ hslots⟩
  | call hpc _ _ hstack =>
    refine ⟨by omega, fun a ha => ?_⟩
    rw [hstack] at ha
    obtain hold | rfl := List.mem_or_eq_of_mem_set ha
    · exact hslots a hold
    · rw [BitVec.toNat_add, show (2 : Word).toNat = 2 from rfl]
      omega
  | ret hpc _ hstack =>
    rw [hpc, hstack]
    exact ⟨Nat.le_trans (slot_le hslots _) (by omega), hslots⟩

/-! ### Elements an instruction does not read -/

/-- A change to the next state of an answer; a fault or a refusal stays. -/
def mapNext (g : State → State) : Host.Outcome State Fault Refusal → Host.Outcome State Fault Refusal
  | .next t => .next (g t)
  | .fault f => .fault f
  | .refused r => .refused r

theorem mapNext_guard {c : Prop} [Decidable c] (g : State → State) (u : State) (f : Fault) :
    mapNext g (if c then .next u else raise f) = if c then .next (g u) else raise f := by
  split <;> rfl

/-- A change that commutes with every register write commutes with a block load (R135). -/
theorem setVFrom_comm {g : State → State} (hg : ∀ s r b, (g s).setV r b = g (s.setV r b)) (bs : List Byte) :
    ∀ (s : State) (k : Nat), (g s).setVFrom k bs = g (s.setVFrom k bs) := by
  induction bs with
  | nil => intro s k; rfl
  | cons b bs ih => intro s k; rw [State.setVFrom, hg, ih]; rfl

/-- The state with the stack slots and `ST` exchanged for others, `SP` as before. -/
def State.withSlotsAndST (l : List Word) (b : Byte) (s : State) : State := { s with stack := l, st := b }

/-- An instruction that the access table gives neither the stack nor `ST` to write does not read a stack slot or `ST`
either: to exchange them before it is to exchange them after it (R32). -/
theorem exec_withSlotsAndST (i : Instr) (s : State) (l : List Word) (b : Byte) (hstack : (writeSet i s).stack = false)
    (hst : (writeSet i s).st = false) :
    exec i (s.withSlotsAndST l b) = mapNext (State.withSlotsAndST l b) (exec i s) := by
  cases i with
  | call | ret => cases hstack
  | ldSTVx => cases hst
  | drw | ldB | storeRegs =>
    simp only [exec, execDrw, execLdB, execStoreRegs, mapNext_guard]
    rfl
  | loadRegs x =>
    have hcomm := setVFrom_comm (g := State.withSlotsAndST l b) (fun _ _ _ => rfl)
    simp only [exec, execLoadRegs, mapNext_guard, hcomm]
    rfl
  | ldVxK x =>
    simp only [exec, execLdVxK, mapNext]
    rw [show (s.withSlotsAndST l b).keyAnyAnswer = s.keyAnyAnswer from rfl]
    split <;> rfl
  | cls | jp | seImm | sneImm | seReg | ldImm | addImm | ldReg | orReg | andReg | xorReg | addReg | subReg | shr
  | subnReg | shl | sneReg | ldI | jpV0 | rnd | skp | sknp | ldVxDT | ldDTVx | addIVx | ldF | unknown => rfl

/-- Two answers are alike: both a next state, in a relation, or both the same fault. -/
def AnswersAlike (R : State → State → Prop) (a b : Host.Outcome State Fault Refusal) : Prop :=
  match a, b with
  | .next s, .next t => R s t
  | .fault f, .fault g => f = g
  | _, _ => False

theorem answersAlike_guard {R : State → State → Prop} {c d : Prop} [Decidable c] [Decidable d] {u v : State}
    {f : Fault} (hcd : c ↔ d) (hR : c → R u v) :
    AnswersAlike R (if c then .next u else raise f) (if d then .next v else raise f) := by
  by_cases hc : c
  · rw [if_pos hc, if_pos (hcd.1 hc)]; exact hR hc
  · rw [if_neg hc, if_neg fun hd => hc (hcd.2 hd)]; exact rfl

/-- Exchanged slots and `ST` leave the answer alike, since no instruction is refused (R164). -/
theorem answersAlike_withSlotsAndST {R : State → State → Prop} {i : Instr} {s : State} {l : List Word} {b : Byte}
    (hstack : (writeSet i s).stack = false) (hst : (writeSet i s).st = false)
    (hR : ∀ u, u.sp = s.sp → u.stack = s.stack → u.st = s.st → R u (u.withSlotsAndST l b)) :
    AnswersAlike R (exec i s) (exec i (s.withSlotsAndST l b)) := by
  rw [exec_withSlotsAndST i s l b hstack hst]
  obtain ⟨-, u, hu⟩ | ⟨f, -, hf⟩ := exec_completes_or_faults i s
  · obtain ⟨-, -, hkeepStack, -, hkeepST, -⟩ := writesStayInAccessTable i s u hu
    obtain ⟨hsp, hslots⟩ := hkeepStack hstack
    rw [hu]
    exact hR u hsp hslots (hkeepST hst)
  · rw [hf]
    exact rfl

/-! ### Stale stack slots -/

/-- After the same push, slots that agreed below the old `SP` agree below the new one. -/
theorem slots_agree_after_push {s : State} {l : List Word} (a : Word) (hlen : l.length = s.stack.length)
    (hslot : ∀ k, k < s.sp → l.getD k 0#16 = s.slot k) :
    ∀ k, k < s.sp + 1 → (l.set s.sp a).getD k 0#16 = (s.stack.set s.sp a).getD k 0#16 := by
  intro k hk
  rw [getD_set_slot, getD_set_slot, hlen]
  split
  · rfl
  · rename_i hnot
    by_cases hk' : k < s.sp
    · exact hslot k hk'
    · have hpast : s.stack.length ≤ k := by omega
      rw [List.getD_eq_default _ _ (by omega), List.getD_eq_default _ _ hpast]

/-- Settles O57: only CALL and RET touch the stack, and they write and read it below the new and the old `SP`. -/
theorem staleSlotsHaveNoEffect : Obligations.StaleSlotsHaveNoEffect := by
  rintro i s t ⟨ht, hlen, hslot⟩
  show AnswersAlike SameButStaleSlots (exec i s) (exec i t)
  generalize t.stack = l at ht hlen
  subst ht
  have keep : ∀ u : State, u.sp = s.sp → u.stack = s.stack → u.st = s.st →
      SameButStaleSlots u (u.withSlotsAndST l s.st) := by
    intro u hsp hstack hst
    refine ⟨by rw [← hst]; rfl, hstack ▸ hlen, fun k hk => ?_⟩
    have hold : u.slot k = s.slot k := by unfold State.slot; rw [hstack]
    rw [hold]
    exact hslot k (hsp ▸ hk)
  cases i with
  | call nnn =>
    rw [exec_call, exec_call]
    exact answersAlike_guard Iff.rfl fun _ =>
      ⟨rfl, by simpa using hlen, slots_agree_after_push (s.pc + 2) hlen hslot⟩
  | ret =>
    rw [exec_ret, exec_ret]
    refine answersAlike_guard Iff.rfl fun hne => ?_
    have hne : s.sp ≠ 0 := hne
    rw [hslot (s.sp - 1) (by omega)]
    exact ⟨rfl, hlen, fun k hk => hslot k (Nat.lt_of_lt_of_le hk (Nat.sub_le ..))⟩
  | ldSTVx x => exact ⟨rfl, hlen, hslot⟩
  | _ => exact answersAlike_withSlotsAndST (l := l) (b := s.st) rfl rfl keep

/-! ### The sound timer -/

/-- Settles O58: LD ST, Vx gives the same `ST` whatever it was, and no other instruction reads it. -/
theorem soundTimerIsNeverRead : Obligations.SoundTimerIsNeverRead := by
  intro i s b
  show AnswersAlike (fun s' t' => t' = { s' with st := t'.st } ∧ ((∀ x, i ≠ .ldSTVx x) → t'.st = b ∧ s'.st = s.st))
    (exec i s) (exec i { s with st := b })
  cases i with
  | call nnn => rw [exec_call, exec_call]; exact answersAlike_guard Iff.rfl fun _ => ⟨rfl, fun _ => ⟨rfl, rfl⟩⟩
  | ret => rw [exec_ret, exec_ret]; exact answersAlike_guard Iff.rfl fun _ => ⟨rfl, fun _ => ⟨rfl, rfl⟩⟩
  | ldSTVx x => exact ⟨rfl, fun hne => absurd rfl (hne x)⟩
  | _ =>
    refine answersAlike_withSlotsAndST (l := s.stack) (b := b) rfl rfl fun u _ hstack hst => ⟨?_, fun _ => ⟨rfl, hst⟩⟩
    rw [← hstack]
    rfl

/-! ### Reset -/

/-- The state after a `Reset` is the constructed one, but for the query counter (R191, R192; log 1). -/
theorem eq_resetWith_of_reset {s t : State} (h : hostStep .reset s = .next t) :
    t = { State.resetWith s.config with portQueries := s.portQueries } :=
  (Host.Outcome.next.inj h).symm

/-- Settles O52: no byte is listed, the stack is empty, and every slot is 0. -/
theorem resetMeetsInvariants : Obligations.ResetMeetsInvariants := by
  intro p
  refine ⟨memory_wf_nil, ⟨List.length_replicate, Nat.zero_le _⟩, (by decide : 0x200 ≤ 0x10FE), fun a ha => ?_⟩
  rw [List.eq_of_mem_replicate ha]
  decide

/-- Settles O53: construction and `Reset` give the one state, up to the query counter, and its elements are read off. -/
theorem resetStateValues : Obligations.ResetStateValues := by
  intro p s t h
  have ht : ∃ q, t = { State.resetWith p with portQueries := q } := by
    obtain rfl | ⟨rfl, hreset⟩ := h
    · exact ⟨0, rfl⟩
    · exact ⟨s.portQueries, eq_resetWith_of_reset hreset⟩
  obtain ⟨q, rfl⟩ := ht
  exact ⟨fun r => Vector.getElem_replicate _, rfl, rfl, rfl, rfl, rfl, rfl, pixel_clear, fun _ => rfl, rfl⟩

end Sys2Proof.Machine
end

section
/-! SUPPORT. Proofs for memory (20_memory.md): what LD [I], Vx stores, read back at one register, and the fetch that
reads it. -/

namespace Sys2Proof.Machine

/-- LD [I], Vx in bounds stores the register block and advances (R134). -/
theorem exec_storeRegs_inBounds {x : Nibble} {s : State} (h : s.i.toNat + x.toNat ≤ 4095) :
    exec (.storeRegs x) s =
      .next { s with mem := Memory.setBlock s.mem s.i.toNat (s.registersTo x) }.advance :=
  if_pos ((blockInBounds_iff s.i (x.toNat + 1)).2 (.inr h))

/-- The byte `r` places into a stored register block is `V[r]` (R134). -/
theorem memory_get_setBlock_registersTo (m : Memory) (a : Nat) (s : State) {x r : Nibble} (h : r.toNat ≤ x.toNat) :
    Memory.get (Memory.setBlock m a (s.registersTo x)) (a + r.toNat) = s.getV r := by
  have hin : a ≤ a + r.toNat ∧ a + r.toNat - a < (s.registersTo x).length := by
    rw [length_registersTo]; omega
  rw [memory_get_setBlock, dif_pos hin, getElem_registersTo]
  simp

/-- The index of a register that has one above it does not wrap. -/
theorem toNat_nibble_add_one {k x : Nibble} (h : k.toNat + 1 ≤ x.toNat) : (k + 1).toNat = k.toNat + 1 :=
  BitVec.toNat_add_of_lt (y := 1) (Nat.lt_of_le_of_lt h x.isLt)

/-- Settles O44: the fetch at `I + k` is in bounds and reads the bytes `k` and `k + 1` of the stored block. -/
theorem storeIsSeenByNextFetch : Obligations.StoreIsSeenByNextFetch := by
  intro x k s hbounds hk hpc
  refine ⟨_, exec_storeRegs_inBounds hbounds, ?_⟩
  have hnext := toNat_nibble_add_one hk
  have hlow : s.i.toNat + k.toNat + 1 = s.i.toNat + (k + 1).toNat := by omega
  rw [fetchWord_inBounds, advance_pc, advance_mem, hpc, hlow,
    memory_get_setBlock_registersTo _ _ s (by omega), memory_get_setBlock_registersTo _ _ s (by omega)]
  rw [advance_pc, hpc]
  omega

end Sys2Proof.Machine
end

section
/-! SUPPORT. Proofs for the encoding (30_encoding.md): the decoder and the encoder against the rows of R68, each way;
then the fetch, the placed word and the tick. -/

namespace Sys2Proof.Laws.EncodingRow

/-- The row statement for every instruction (R68, R69). -/
theorem statement (i : Instr) : Statement i := by
  cases i
  exacts [cls, ret, jp _, call _, seImm _ _, sneImm _ _, seReg _ _, ldImm _ _, addImm _ _, ldReg _ _, orReg _ _,
    andReg _ _, xorReg _ _, addReg _ _, subReg _ _, shr _ _, subnReg _ _, shl _ _, sneReg _ _, ldI _, jpV0 _, rnd _ _,
    drw _ _ _, skp _, sknp _, ldVxDT _, ldVxK _, ldDTVx _, ldSTVx _, addIVx _, ldF _, ldB _, storeRegs _, loadRegs _,
    unknown _]

/-- The row an instruction stands for, if any, is in the map and matches its word (R68). -/
theorem row_matches_encode {i : Instr} {r : OpcodeRow} (h : rowOf i = some r) :
    r ∈ definedRows ∧ encode i &&& r.mask = r.value := by
  have hi := statement i
  rw [Statement, h] at hi
  obtain ⟨hr, haccepts⟩ := hi
  exact ⟨hr, beq_iff_eq.1 haccepts⟩

/-- Only the unknown opcodes stand for no row (R69). -/
theorem exists_unknown_of_rowOf_eq_none {i : Instr} (h : rowOf i = none) : ∃ w, i = .unknown w := by
  cases i with
  | unknown w => exact ⟨w, rfl⟩
  | _ => cases h

end Sys2Proof.Laws.EncodingRow

namespace Sys2Proof.Machine
open Laws.EncodingRow (rowOf row_matches_encode exists_unknown_of_rowOf_eq_none)

/-! ### A word from its fields -/

theorem formatNNN_of_fields {w : Word} {n1 : Nibble} (h1 : nibble1 w = n1) : formatNNN n1 (addr12 w) = w := by
  subst h1
  apply BitVec.eq_of_getLsbD_eq; intro k hk
  rw [getLsbD_formatNNN]
  interval_cases k <;> simp [nibble1, addr12]

theorem formatXNN_of_fields {w : Word} {n1 : Nibble} {nn : Byte} (h1 : nibble1 w = n1) (h8 : imm8 w = nn) :
    formatXNN n1 (nibble2 w) nn = w := by
  subst h1 h8
  apply BitVec.eq_of_getLsbD_eq; intro k hk
  rw [getLsbD_formatXNN]
  interval_cases k <;> simp [nibble1, nibble2, imm8]

theorem formatXYN_of_fields {w : Word} {n1 n4 : Nibble} (h1 : nibble1 w = n1) (h4 : nibble4 w = n4) :
    formatXYN n1 (nibble2 w) (nibble3 w) n4 = w := by
  subst h1 h4
  apply BitVec.eq_of_getLsbD_eq; intro k hk
  rw [getLsbD_formatXYN]
  interval_cases k <;> simp [nibble1, nibble2, nibble3, nibble4]

/-! ### Encoding what was decoded -/

/-- The word of CLS is in its row under every configuration (R70, D12). -/
theorem decodeGroup0_cls (p : Config.Params) : decodeGroup0 p 0x00E0#16 = .cls := by simp [decodeGroup0]

/-- The word of RET too: its last nibble is not that of CLS (R70, D12). -/
theorem decodeGroup0_ret (p : Config.Params) : decodeGroup0 p 0x00EE#16 = .ret := by
  simp [decodeGroup0, nibble4]

/-- Matched exactly, group 0 holds two defined words (R70). -/
theorem decodeGroup0_exact {p : Config.Params} (w : Word) (hp : p.zeroGroupLoose = false) :
    decodeGroup0 p w = if w = 0x00E0#16 then .cls else if w = 0x00EE#16 then .ret else .unknown w := by
  simp [decodeGroup0, hp]

/-- A switch encodes to the word when each of its branches does. -/
theorem encode_ite {c : Prop} [Decidable c] {i j : Instr} {w : Word} (hi : c → encode i = w)
    (hj : ¬ c → encode j = w) : encode (if c then i else j) = w := by
  split
  · exact hi ‹_›
  · exact hj ‹_›

theorem encode_decodeGroup0 {p : Config.Params} {w : Word} (hp : p.zeroGroupLoose = false) :
    encode (decodeGroup0 p w) = w := by
  rw [decodeGroup0_exact w hp]
  exact encode_ite Eq.symm fun _ => encode_ite Eq.symm fun _ => rfl

theorem encode_decodeGroup8 {w : Word} (h1 : nibble1 w = 0x8#4) : encode (decodeGroup8 w) = w := by
  unfold decodeGroup8
  iterate 9 refine encode_ite (formatXYN_of_fields h1) fun _ => ?_
  rfl

theorem encode_decodeGroupE {w : Word} (h1 : nibble1 w = 0xE#4) : encode (decodeGroupE w) = w := by
  unfold decodeGroupE
  iterate 2 refine encode_ite (formatXNN_of_fields h1) fun _ => ?_
  rfl

theorem encode_decodeGroupF {w : Word} (h1 : nibble1 w = 0xF#4) : encode (decodeGroupF w) = w := by
  unfold decodeGroupF
  iterate 9 refine encode_ite (formatXNN_of_fields h1) fun _ => ?_
  rfl

/-- Outside group 0, and in it when it is matched exactly, decoding drops no bit of the word (R62, R70). -/
theorem encode_decodeWith {p : Config.Params} {w : Word} (h : p.zeroGroupLoose = false ∨ nibble1 w ≠ 0x0#4) :
    encode (decodeWith p w) = w := by
  unfold decodeWith
  refine encode_ite (fun h0 => encode_decodeGroup0 (h.resolve_right (not_not_intro h0))) fun _ => ?_
  iterate 2 refine encode_ite formatNNN_of_fields fun _ => ?_
  iterate 2 refine encode_ite (formatXNN_of_fields · rfl) fun _ => ?_
  refine encode_ite (fun h5 => encode_ite (formatXYN_of_fields h5) fun _ => rfl) fun _ => ?_
  iterate 2 refine encode_ite (formatXNN_of_fields · rfl) fun _ => ?_
  refine encode_ite encode_decodeGroup8 fun _ => ?_
  refine encode_ite (fun h9 => encode_ite (formatXYN_of_fields h9) fun _ => rfl) fun _ => ?_
  iterate 2 refine encode_ite formatNNN_of_fields fun _ => ?_
  refine encode_ite (formatXNN_of_fields · rfl) fun _ => ?_
  refine encode_ite (formatXYN_of_fields · rfl) fun _ => ?_
  exact encode_ite encode_decodeGroupE fun _ => encode_decodeGroupF (by bv_omega)

/-- The only unknown opcode a word decodes to carries the word itself, with group 0 matched loosely too (R69). -/
theorem eq_of_decodeWith_eq_unknown {p : Config.Params} {w v : Word} (h : decodeWith p w = .unknown v) : v = w := by
  by_cases h0 : nibble1 w = 0x0#4
  · rw [decodeWith, if_pos h0, decodeGroup0] at h
    split at h
    · cases h
    split at h
    · cases h
    · exact (Instr.unknown.inj h).symm
  · have hw := encode_decodeWith (p := p) (.inr h0)
    rwa [h] at hw

/-! ### The row a word is decoded by -/

/-- Under a mask of ones a field is the field of the match (R66). -/
theorem extractLsb'_eq_of_and_eq {w m v : Word} {start len : Nat} (h : w &&& m = v)
    (hm : m.extractLsb' start len = BitVec.allOnes len) : w.extractLsb' start len = v.extractLsb' start len := by
  rw [← h, BitVec.extractLsb'_and, hm, BitVec.and_allOnes]

/-- The row of a group 8 word hangs on `n4` alone (R67). -/
theorem rowOf_decodeGroup8_congr {w v : Word} (h : nibble4 w = nibble4 v) :
    rowOf (decodeGroup8 w) = rowOf (decodeGroup8 v) := by
  simp only [decodeGroup8, h, apply_ite rowOf]
  rfl

/-- The row of a group E word hangs on the low byte alone (R67). -/
theorem rowOf_decodeGroupE_congr {w v : Word} (h : imm8 w = imm8 v) :
    rowOf (decodeGroupE w) = rowOf (decodeGroupE v) := by
  simp only [decodeGroupE, h, apply_ite rowOf]
  rfl

/-- The row of a group F word hangs on the low byte alone (R67). -/
theorem rowOf_decodeGroupF_congr {w v : Word} (h : imm8 w = imm8 v) :
    rowOf (decodeGroupF w) = rowOf (decodeGroupF v) := by
  simp only [decodeGroupF, h, apply_ite rowOf]
  rfl

/-- Every mask covers the first nibble (R68). -/
theorem mask_nibble1 : ∀ r ∈ definedRows, r.mask.extractLsb' 12 4 = BitVec.allOnes 4 := by decide

/-- The rows of group 8 fix `n4`, and the switch on it takes each match to its row (R67, R68). -/
theorem rowsGroup8_switch : ∀ r ∈ rowsGroup8, nibble1 r.value = 0x8#4 ∧
    r.mask.extractLsb' 0 4 = BitVec.allOnes 4 ∧ rowOf (decodeGroup8 r.value) = some r := by decide

/-- The rows of group F fix the low byte, and the switch on it takes each match to its row (R67, R68). -/
theorem rowsGroupF_switch : ∀ r ∈ rowsGroupF, nibble1 r.value = 0xF#4 ∧
    r.mask.extractLsb' 0 8 = BitVec.allOnes 8 ∧ rowOf (decodeGroupF r.value) = some r := by decide

/-- A word that a row matches decodes to the instruction of that row, whatever the configuration (R67, R68): the masks
fix the first nibble, and then `n4` or the low byte where the group switches on it. -/
theorem rowOf_decodeWith (p : Config.Params) {w : Word} {r : OpcodeRow} (hr : r ∈ definedRows)
    (h : w &&& r.mask = r.value) : rowOf (decodeWith p w) = some r := by
  have h1 : nibble1 w = nibble1 r.value := extractLsb'_eq_of_and_eq h (mask_nibble1 r hr)
  have h4 : r.mask.extractLsb' 0 4 = BitVec.allOnes 4 → nibble4 w = nibble4 r.value := extractLsb'_eq_of_and_eq h
  have h8 : r.mask.extractLsb' 0 8 = BitVec.allOnes 8 → imm8 w = imm8 r.value := extractLsb'_eq_of_and_eq h
  simp only [definedRows, List.mem_append] at hr
  rw [decodeWith, h1]
  obtain ((hr | hr) | hr) | hr := hr
  · simp only [rowsGroup0to7, List.mem_cons, List.not_mem_nil, or_false] at hr
    obtain rfl | rfl | rfl | rfl | rfl | rfl | rfl | rfl | rfl := hr
    · rw [BitVec.and_allOnes.symm.trans h]; exact congrArg rowOf (decodeGroup0_cls p)
    · rw [BitVec.and_allOnes.symm.trans h]; exact congrArg rowOf (decodeGroup0_ret p)
    iterate 4 · rfl
    · rw [h4 rfl]; rfl
    iterate 2 · rfl
  · obtain ⟨hv, hm, hd⟩ := rowsGroup8_switch r hr
    rw [hv]
    exact (rowOf_decodeGroup8_congr (h4 hm)).trans hd
  · simp only [rowsGroup9toE, List.mem_cons, List.not_mem_nil, or_false] at hr
    obtain rfl | rfl | rfl | rfl | rfl | rfl | rfl := hr
    · rw [h4 rfl]; rfl
    iterate 4 · rfl
    iterate 2 · exact rowOf_decodeGroupE_congr (h8 rfl)
  · obtain ⟨hv, hm, hd⟩ := rowsGroupF_switch r hr
    rw [hv]
    exact (rowOf_decodeGroupF_congr (h8 hm)).trans hd

/-! ### The decoder against the opcode map -/

theorem isDefinedWord_eq_false_iff (w : Word) :
    isDefinedWord w = false ↔ ∀ r ∈ definedRows, w &&& r.mask ≠ r.value := by
  simp [isDefinedWord, OpcodeRow.accepts]

/-- No row matches a word that decodes to an unknown opcode, with group 0 matched loosely too (R69). -/
theorem no_row_of_decodeWith_eq_unknown {p : Config.Params} {w v : Word} (h : decodeWith p w = .unknown v) :
    ∀ r ∈ definedRows, w &&& r.mask ≠ r.value := by
  intro r hr hw
  have hrow := rowOf_decodeWith p hr hw
  rw [h] at hrow
  cases hrow

/-- Matched exactly, a word of no row has nothing else to decode to: an instruction with a row has it in its word. -/
theorem decodeWith_eq_unknown_of_no_row {p : Config.Params} {w : Word} (hp : p.zeroGroupLoose = false)
    (h : ∀ r ∈ definedRows, w &&& r.mask ≠ r.value) : decodeWith p w = .unknown w := by
  have hw : encode (decodeWith p w) = w := encode_decodeWith (.inl hp)
  cases hrow : rowOf (decodeWith p w) with
  | none =>
    obtain ⟨v, hv⟩ := exists_unknown_of_rowOf_eq_none hrow
    rw [hv, eq_of_decodeWith_eq_unknown hv]
  | some r =>
    obtain ⟨hr, hm⟩ := row_matches_encode hrow
    rw [hw] at hm
    exact absurd hm (h r hr)

theorem wf_decodeWith (p : Config.Params) (w : Word) : (decodeWith p w).wf = true := by
  cases h : decodeWith p w with
  | unknown v =>
    have hdef := (isDefinedWord_eq_false_iff w).2 (no_row_of_decodeWith_eq_unknown h)
    rw [Instr.wf, eq_of_decodeWith_eq_unknown h, hdef]
    rfl
  | _ => rfl

/-- The word of an instruction of the map decodes to it under every configuration: each switch reads back the constant
its format was built with (R65, R67). -/
theorem decodeWith_encode_of_defined (p : Config.Params) {i : Instr} (h : ∀ w, i ≠ .unknown w) :
    decodeWith p (encode i) = i := by
  cases i with
  | cls => exact decodeGroup0_cls p
  | ret => exact decodeGroup0_ret p
  | jp | call | ldI | jpV0 | seImm | sneImm | ldImm | addImm | rnd | seReg | sneReg | drw => simp [encode, decodeWith]
  | ldReg | orReg | andReg | xorReg | addReg | subReg | shr | subnReg | shl =>
    simp [encode, decodeWith, decodeGroup8]
  | skp | sknp => simp [encode, decodeWith, decodeGroupE]
  | ldVxDT | ldVxK | ldDTVx | ldSTVx | addIVx | ldF | ldB | storeRegs | loadRegs =>
    simp [encode, decodeWith, decodeGroupF]
  | unknown w => exact absurd rfl (h w)

/-- Settles O1: an instruction of the map is read back field by field, and the word of a well-formed unknown opcode is
in no row. -/
theorem decodeInvertsEncode : Obligations.DecodeInvertsEncode := by
  intro p i hwf h
  by_cases hi : ∀ w, i ≠ .unknown w
  · exact decodeWith_encode_of_defined p hi
  · obtain ⟨w, rfl⟩ : ∃ w, i = .unknown w := by simpa using hi
    have hdef : isDefinedWord w = false := by simpa [Instr.wf] using hwf
    exact decodeWith_eq_unknown_of_no_row (h.resolve_right hi) ((isDefinedWord_eq_false_iff w).1 hdef)

/-- Settles O2: every switch keeps the fields it does not test as operands, and an unknown opcode keeps the word. -/
theorem encodeInvertsDecode : Obligations.EncodeInvertsDecode :=
  fun p w => ⟨wf_decodeWith p w, fun hp => encode_decodeWith (.inl hp)⟩

/-- Settles O3: a matched word decodes to the instruction of its row, and every other word to the unknown opcode. -/
theorem unknownWordsMatchNoRow : Obligations.UnknownWordsMatchNoRow :=
  fun _ _ hp => ⟨no_row_of_decodeWith_eq_unknown, decodeWith_eq_unknown_of_no_row hp⟩

/-- Settles O4: a word decodes to one instruction, which stands for one row. -/
theorem opcodeRowsNeverOverlap : Obligations.OpcodeRowsNeverOverlap := by
  intro w r q hr hq hrw hqw
  have hdr := rowOf_decodeWith params hr (beq_iff_eq.1 hrw)
  have hdq := rowOf_decodeWith params hq (beq_iff_eq.1 hqw)
  exact Option.some.inj (hdr.symm.trans hdq)

/-- Words that differ in the low twelve bits differ. -/
theorem formatNNN_ne {n1 : Nibble} {nnn : Imm12} {w : Word} (h : nnn ≠ addr12 w) : formatNNN n1 nnn ≠ w :=
  fun he => h (by rw [← he, addr12_formatNNN])

/-- Settles O6: group 0 is the two words of its exact switch, and groups 5 and 9 test `n4` alone. -/
theorem undefinedGroupWords : Obligations.UndefinedGroupWords := by
  refine fun p => ⟨fun hp => ⟨decodeGroup0_cls p, decodeGroup0_ret p, fun nnn hcls hret => ⟨?_, fun s => rfl⟩⟩,
    fun x y k => ⟨?_, ?_⟩⟩
  · show decodeWith p (formatNNN 0x0#4 nnn) = .unknown (formatNNN 0x0#4 nnn)
    rw [decodeWith, nibble1_formatNNN, if_pos rfl, decodeGroup0_exact _ hp,
      if_neg (formatNNN_ne (w := 0x00E0#16) hcls), if_neg (formatNNN_ne (w := 0x00EE#16) hret)]
  · show decodeWith p (formatXYN 0x5#4 x y k) = if k = 0#4 then .seReg x y else .unknown (formatXYN 0x5#4 x y k)
    simp [decodeWith]
  · show decodeWith p (formatXYN 0x9#4 x y k) = if k = 0#4 then .sneReg x y else .unknown (formatXYN 0x9#4 x y k)
    simp [decodeWith]

/-! ### Fetch and tick -/

/-- The tick whose fetch is out of bounds (R61). -/
theorem tick_outOfBounds {s : State} (h : s.pc.toNat > 4094) : tick s = .ok (faulted .memOutOfBounds s) := by
  rw [tick, fetchWord_outOfBounds s h]

/-- Settles O7: both bytes lie in `MEM` exactly when `PC` is at most 4094, and `++` puts the first above the second. -/
theorem fetchIsBigEndianAndBounded : Obligations.FetchIsBigEndianAndBounded := by
  refine ⟨fun s hpc => ⟨_, fetchWord_inBounds s hpc, ?_⟩, fun s hpc => ?_⟩
  · rw [BitVec.toNat_append, ← Nat.shiftLeft_add_eq_or_of_lt (BitVec.isLt _), Nat.shiftLeft_eq]
    omega
  · have hf := fetchWord_outOfBounds s hpc
    exact ⟨hf, by rw [step, hf]; rfl, tick_outOfBounds hpc⟩

/-- Settles O8: the fetch in bounds, then decode and execution. -/
theorem stepRunsDecodedInstruction : Obligations.StepRunsDecodedInstruction :=
  fun s _ hpc _ hd => step_eq_exec (fetchWord_inBounds s hpc) hd

theorem tableWord_toNat (w : Word) : tableWord 16 w.toNat = w := by
  rw [tableWord, Nat.mod_eq_of_lt w.isLt, BitVec.ofNat_toNat, BitVec.setWidth_eq]

/-- Where the fetch is in bounds a placed word leaves `PC` alone (log 6). -/
theorem placeWord_pc {s : State} (w : Word) (h : s.pc.toNat ≤ 4094) : (placeWord s w).pc = s.pc :=
  if_pos ((blockInBounds_iff _ _).2 (by omega))

/-- A placed word is a move of `PC` and two bytes written there (log 6). -/
theorem frame_placeWord (s : State) (w : Word) :
    Frame { mem := [(placeWord s w).pc.toNat, (placeWord s w).pc.toNat + 1] } s (placeWord s w) := by
  refine ((Frame.refl _ s).jumpTo (placeWord s w).pc).setBlock [highByte w, lowByte w] (placeWord s w).pc.toNat ?_
  intro k hk
  have hk : k < 2 := hk
  interval_cases k <;> simp

/-- Settles O9: the placed word is what the fetch reads, and placing it writes two bytes and at most `PC`. -/
theorem placedWordRunsNext : Obligations.PlacedWordRunsNext := by
  intro s w
  simp only [State.withFetchWord, tableWord_toNat]
  exact ⟨step_eq_exec (fetchWord_placeWord s w) rfl, placeWord_pc w, frame_placeWord s w⟩

/-- Settles O10: past the fetch check the tick hands on the answer of `exec`, which is the fatal condition met or a
next state. -/
theorem tickFollowsProcedure : Obligations.TickFollowsProcedure := by
  refine fun s => ⟨tick_outOfBounds, ?_⟩
  rintro i hpc rfl
  refine ⟨fun f hfatal => ?_, fun hnone => ?_⟩
  · have hexec := (exec_fault_iff _ s f).2 hfatal
    rw [tick, fetchWord_inBounds s hpc]
    simp only [hexec]
    rfl
  · obtain ⟨-, t, ht⟩ | ⟨f, hf, -⟩ := exec_completes_or_faults _ s
    · refine ⟨t, ht, ?_⟩
      rw [tick, fetchWord_inBounds s hpc]
      simp only [ht]
      rfl
    · rw [hf] at hnone
      cases hnone

end Sys2Proof.Machine
end

section
/-! SUPPORT. Proofs for control transfer (40_control_transfer.md): the targets in numbers, the fetch after a jump past
the end of `MEM`, the state a CALL leaves and what RET makes of it. -/

namespace Sys2Proof.Machine

/-! ### Targets -/

theorem toNat_zext12 (a : Imm12) : (zext12 a).toNat = a.toNat :=
  BitVec.toNat_setWidth_of_le (by decide)

/-- The sum of `Bnnn` is a sum over the integers (R84). -/
theorem toNat_zext12_add_zext8 (a : Imm12) (b : Byte) : (zext12 a + zext8 b).toNat = a.toNat + b.toNat := by
  have ha := a.isLt
  have hb := b.isLt
  rw [BitVec.toNat_add, toNat_zext12, BitVec.toNat_setWidth_of_le (by decide)]
  omega

/-- An address up to 0xFFF is its twelve low bits (R63). -/
theorem zext12_addr12_of_le {a : Word} (h : a.toNat ≤ 0xFFF) : zext12 (addr12 a) = a := by
  apply BitVec.eq_of_toNat_eq
  rw [toNat_zext12, addr12, BitVec.extractLsb'_toNat, Nat.shiftRight_zero]
  omega

/-- The word of `JP nnn` as the sum of its match and its address (R81). -/
theorem or_zext12_eq_formatNNN (nnn : Imm12) : 0x1000#16 ||| zext12 nnn = formatNNN 0x1#4 nnn := by
  apply BitVec.eq_of_toNat_eq
  rw [formatNNN, BitVec.toNat_append, BitVec.toNat_or, toNat_zext12]
  rfl

/-- With `PC` above 4094 the step is the memory fault of the fetch (R61). -/
theorem step_outOfBounds {s : State} (h : s.pc.toNat > 4094) : step s = .fault .memOutOfBounds := by
  rw [step, fetchWord_outOfBounds s h]
  rfl

/-! ### Jumps -/

theorem decodeWith_jp (p : Config.Params) (nnn : Imm12) : decodeWith p (formatNNN 0x1#4 nnn) = .jp nnn :=
  decodeWith_encode_of_defined p (i := .jp nnn) (by simp)

theorem decodeWith_jpV0 (p : Config.Params) (nnn : Imm12) : decodeWith p (formatNNN 0xB#4 nnn) = .jpV0 nnn :=
  decodeWith_encode_of_defined p (i := .jpV0 nnn) (by simp)

theorem exec_jp (nnn : Imm12) (s : State) : exec (.jp nnn) s = .next (s.jumpTo (zext12 nnn)) := rfl

theorem exec_jpV0 (nnn : Imm12) (s : State) :
    exec (.jpV0 nnn) s = .next (s.jumpTo (zext12 nnn + zext8 (s.getV 0#4))) := rfl

/-- Settles O14: the target is the operand zero-extended, and 0xFFF is above the last address a fetch can start at. -/
theorem jumpSetsPc : Obligations.JumpSetsPc := by
  intro nnn s
  refine ⟨decodeWith_jp s.config nnn, _, exec_jp nnn s, toNat_zext12 nnn, (Frame.refl _ s).jumpTo _, ?_⟩
  rintro rfl
  exact step_outOfBounds (by rw [jumpTo_pc]; decide)

/-- Settles O18: the target is the sum over the integers, so the fetch check sees it unreduced. -/
theorem jumpAddsV0 : Obligations.JumpAddsV0 := by
  intro nnn s
  have hsum := toNat_zext12_add_zext8 nnn (s.getV 0#4)
  refine ⟨decodeWith_jpV0 s.config nnn, _, exec_jpV0 nnn s, hsum, (Frame.refl _ s).jumpTo _, fun hbig => ?_⟩
  exact step_outOfBounds (by rwa [jumpTo_pc, hsum])

/-- Settles O59: `PC` is the zero-extension of its low twelve bits, so the word at `PC` is the JP that sets it to what
it is. -/
theorem selfJumpIsFixpoint : Obligations.SelfJumpIsFixpoint := by
  rintro s ⟨hle, hfetch⟩
  obtain ⟨nnn, htarget⟩ : ∃ nnn, zext12 nnn = s.pc := ⟨addr12 s.pc, zext12_addr12_of_le hle⟩
  rw [← htarget, or_zext12_eq_formatNNN] at hfetch
  calc step s = exec (.jp nnn) s := step_eq_exec hfetch (decodeWith_jp s.config nnn)
    _ = .next (s.jumpTo s.pc) := by rw [exec_jp, htarget]

/-! ### Call and return -/

/-- The state after a CALL that finds room (R82); `exec_call_of_room` ties it to the instruction. -/
def State.called (s : State) (nnn : Imm12) : State :=
  State.jumpTo { s with stack := s.stack.set s.sp (s.pc + 2), sp := s.sp + 1 } (zext12 nnn)

theorem exec_call_of_room {s : State} (nnn : Imm12) (h : s.sp < s.config.stackCapacity) :
    exec (.call nnn) s = .next (s.called nnn) :=
  (exec_call nnn s).trans (if_pos h.ne)

theorem exec_ret_of_nonempty {s : State} {k : Nat} (h : s.sp = k + 1) :
    exec .ret s = .next (State.jumpTo { s with sp := k } (s.slot k)) := by
  rw [exec_ret, h]
  rfl

theorem frame_called (s : State) (nnn : Imm12) : Frame { stack := true } s (s.called nnn) :=
  ((Frame.refl _ s).setStack rfl _ _).jumpTo _

theorem length_stack_called (s : State) (nnn : Imm12) : (s.called nnn).stack.length = s.stack.length :=
  List.length_set ..

/-- The return address is in the slot at the old `SP`, and no other slot was written (R82). -/
theorem slot_called {s : State} (hs : StackShaped s) (hroom : s.sp < s.config.stackCapacity) (nnn : Imm12) (k : Nat) :
    (s.called nnn).slot k = if k = s.sp then s.pc + 2 else s.slot k := by
  obtain ⟨hlen, -⟩ := hs
  have hin : s.sp < s.stack.length := hlen ▸ hroom
  calc (s.called nnn).slot k = if k = s.sp ∧ s.sp < s.stack.length then s.pc + 2 else s.slot k :=
        getD_set_slot s.stack s.sp k (s.pc + 2)
    _ = if k = s.sp then s.pc + 2 else s.slot k := by simp [hin]

/-- Settles O15: the push writes the slot at `SP`, which a stack of STACK_CAPACITY slots has while `SP` is below it. -/
theorem callPushesReturnAddress : Obligations.CallPushesReturnAddress := by
  refine fun nnn s => ⟨decodeWith_call s.config nnn, fun hs hroom => ?room, fun hfull => ?full⟩
  case room =>
    exact ⟨_, exec_call_of_room nnn hroom, toNat_zext12 nnn, rfl, slot_called hs hroom nnn,
      length_stack_called s nnn, frame_called s nnn⟩
  case full => exact (exec_call nnn s).trans (if_neg (not_not_intro hfull))

/-- Settles O16: the pop moves `SP` alone, and the popped address goes to `PC` as it is. -/
theorem returnPopsIntoPc : Obligations.ReturnPopsIntoPc := by
  refine fun s => ⟨decodeGroup0_ret s.config, fun k hk => ?nonempty, fun hzero => ?empty⟩
  case nonempty =>
    exact ⟨_, exec_ret_of_nonempty hk, rfl, rfl, rfl, ((Frame.refl _ s).setStack rfl s.stack k).jumpTo _⟩
  case empty => exact (exec_ret s).trans (if_neg (not_not_intro hzero))

/-- RET after CALL pops the address CALL pushed: of the state before, `PC` has gone on by one instruction and the slot
at `SP` was written (R82, R83). -/
theorem exec_ret_called {s : State} (hs : StackShaped s) (hroom : s.sp < s.config.stackCapacity) (nnn : Imm12) :
    exec .ret (s.called nnn) = .next { s with pc := s.pc + 2, stack := (s.called nnn).stack } := by
  have hpopped : (s.called nnn).slot s.sp = s.pc + 2 := (slot_called hs hroom nnn s.sp).trans (if_pos rfl)
  rw [exec_ret_of_nonempty (k := s.sp) rfl, hpopped]
  rfl

/-- Settles O17: RET finds the address CALL pushed, and the slot it leaves behind is the one at `SP`. -/
theorem callThenReturnComesBack : Obligations.CallThenReturnComesBack := by
  intro nnn s hs hroom
  have hlen := length_stack_called s nnn
  have hother : ∀ k, k ≠ s.sp → (s.called nnn).slot k = s.slot k := fun k hk =>
    (slot_called hs hroom nnn k).trans (if_neg hk)
  have hstale : SameButStaleSlots { s with pc := s.pc + 2 } { s with pc := s.pc + 2, stack := (s.called nnn).stack } :=
    ⟨rfl, hlen, fun k hk => hother k hk.ne⟩
  exact ⟨_, _, exec_call_of_room nnn hroom, exec_ret_called hs hroom nnn, rfl, rfl, hlen, hother, hstale,
    ((Frame.refl _ s).setStack rfl (s.called nnn).stack s.sp).jumpTo (s.pc + 2)⟩

end Sys2Proof.Machine
end

section
/-! SUPPORT. Proofs for the conditional skips (41_conditional_skip.md): where a skip leaves `PC` when its condition is
an answer or the opposite of one, what a skip on equal and on unequal bytes does; then the four comparing skips. -/

namespace Sys2Proof.Machine

/-! ### Where a skip leaves `PC` -/

theorem skip_pc_ite (s : State) (c : Bool) : (s.skip c).pc = if c = true then s.pc + 4 else s.pc + 2 := by
  cases c with
  | false => rfl
  | true => rfl

theorem skip_not_pc_ite (s : State) (c : Bool) : (s.skip !c).pc = if c = true then s.pc + 2 else s.pc + 4 := by
  cases c with
  | false => rfl
  | true => rfl

/-! ### Skips on a comparison of two bytes -/

section comparison
variable {i : Instr} {s : State} {a b : Byte}

/-- An instruction that skips on equality: both outcomes for `PC`, and nothing else changes (R90, R92). -/
theorem skips_of_exec_beq (h : exec i s = .next (s.skip (a == b))) :
    ∃ t, exec i s = .next t ∧ t.pc = (if a = b then s.pc + 4 else s.pc + 2) ∧ Frame {} s t := by
  have hpc := skip_pc_ite s (a == b)
  simp only [beq_iff_eq] at hpc
  exact ⟨_, h, hpc, (Frame.refl _ s).skip _⟩

/-- An instruction that skips on inequality: the outcomes of equality exchanged (R91, R93). -/
theorem skips_of_exec_bne (h : exec i s = .next (s.skip (a != b))) :
    ∃ t, exec i s = .next t ∧ t.pc = (if a = b then s.pc + 2 else s.pc + 4) ∧ Frame {} s t := by
  have hpc := skip_not_pc_ite s (a == b)
  simp only [beq_iff_eq] at hpc
  exact ⟨_, h, hpc, (Frame.refl _ s).skip _⟩

end comparison

theorem exec_seImm (x : Nibble) (nn : Byte) (s : State) :
    exec (.seImm x nn) s = .next (s.skip (s.getV x == nn)) := rfl

theorem exec_sneImm (x : Nibble) (nn : Byte) (s : State) :
    exec (.sneImm x nn) s = .next (s.skip (s.getV x != nn)) := rfl

theorem exec_seReg (x y : Nibble) (s : State) :
    exec (.seReg x y) s = .next (s.skip (s.getV x == s.getV y)) := rfl

theorem exec_sneReg (x y : Nibble) (s : State) :
    exec (.sneReg x y) s = .next (s.skip (s.getV x != s.getV y)) := rfl

/-- Settles O19: the two words are the encodings of the skips, which compare the register with the immediate. -/
theorem skipOnImmediate : Obligations.SkipOnImmediate := by
  intro x nn s
  have hse := decodeWith_encode_of_defined s.config (i := .seImm x nn) (by simp)
  have hsne := decodeWith_encode_of_defined s.config (i := .sneImm x nn) (by simp)
  exact ⟨hse, hsne, skips_of_exec_beq (exec_seImm x nn s), skips_of_exec_bne (exec_sneImm x nn s)⟩

/-- Settles O20: the two words are the encodings of the skips, which compare the two registers; `x = y` needs no
case of its own. -/
theorem skipOnRegisters : Obligations.SkipOnRegisters := by
  intro x y s
  have hse := decodeWith_encode_of_defined s.config (i := .seReg x y) (by simp)
  have hsne := decodeWith_encode_of_defined s.config (i := .sneReg x y) (by simp)
  exact ⟨hse, hsne, skips_of_exec_beq (exec_seReg x y s), skips_of_exec_bne (exec_sneReg x y s)⟩

end Sys2Proof.Machine
end

section
/-! SUPPORT. Proofs for arithmetic and logic (42_arithmetic_logic.md): the flags, the difference and the shift source in
numbers; what an instruction leaves that writes one register, and what one leaves that writes a result and a flag; then
the instructions, each of them one of these two. -/

namespace Sys2Proof.Machine

/-! ### Flags and results in numbers -/

theorem toNat_flagOf (b : Bool) : (flagOf b).toNat = b.toNat := by
  cases b with
  | false => rfl
  | true => rfl

theorem toNat_carryFlag (a b : Byte) : (carryFlag a b).toNat = if a.toNat + b.toNat > 255 then 1 else 0 :=
  (toNat_flagOf _).trans (Bool.cond_decide _ _ _)

theorem toNat_noBorrowFlag (a b : Byte) : (noBorrowFlag a b).toNat = if a.toNat ≥ b.toNat then 1 else 0 :=
  (toNat_flagOf _).trans (Bool.cond_decide _ _ _)

theorem toNat_rightShiftFlag (a : Byte) : (rightShiftFlag a).toNat = a.toNat % 2 := by
  rw [rightShiftFlag, toNat_flagOf, BitVec.getLsbD, Nat.toNat_testBit, pow_zero, Nat.div_one]

theorem toNat_leftShiftFlag (a : Byte) : (leftShiftFlag a).toNat = a.toNat / 128 := by
  have ha := a.isLt
  rw [leftShiftFlag, toNat_flagOf, BitVec.getLsbD, Nat.toNat_testBit]
  omega

/-- The difference of two bytes is the difference over the integers, modulo 256 (R107, R109). -/
theorem toNat_sub_eq_emod (a b : Byte) : ((a - b).toNat : Int) = ((a.toNat : Int) - (b.toNat : Int)) % 256 := by
  have hb := b.isLt
  rw [BitVec.toNat_sub]
  omega

theorem toNat_shiftSource (s : State) (x y : Nibble) : (s.shiftSource x y).toNat =
    if s.config.shiftUsesVy = true then (s.getV y).toNat else (s.getV x).toNat :=
  apply_ite BitVec.toNat _ _ _

theorem shiftSource_in_place {s : State} (h : s.config.shiftUsesVy = false) (x y : Nibble) :
    s.shiftSource x y = s.getV x :=
  if_neg (by simp [h])

/-! ### The two shapes -/

section shapes
variable {i : Instr} {s : State} {x : Nibble} {a b flag : Byte}

/-- An instruction that writes one register: that register, `PC`, and nothing else (R100 to R105). -/
theorem writes_of_exec_setV (h : exec i s = .next (s.setV x a).advance) :
    ∃ t, exec i s = .next t ∧ t.getV x = a ∧ t.pc = s.pc + 2 ∧ Frame { regs := [x] } s t :=
  ⟨_, h, (getV_setV s x x a).trans (if_pos rfl), rfl, ((Frame.refl _ s).setV (List.mem_singleton_self x) a).advance⟩

/-- An instruction that sets a flag: VF is the flag for every `x`, and `V[x]` the result unless it is VF (R112). -/
theorem writes_of_exec_setResultAndFlag (h : exec i s = .next (s.setResultAndFlag x a flag).advance) :
    ∃ t, exec i s = .next t ∧ t.getV flagReg = flag ∧ (x ≠ flagReg → t.getV x = a) ∧ t.pc = s.pc + 2 ∧
      Frame { regs := [x, flagReg] } s t := by
  have hread := getV_setResultAndFlag s x
  refine ⟨_, h, (hread flagReg a flag).trans (if_pos rfl), fun hx => ?_, rfl, ?_⟩
  · exact ((hread x a flag).trans (if_neg hx)).trans (if_pos rfl)
  · exact ((Frame.refl _ s).setResultAndFlag (by simp) (by simp) a flag).advance

/-- A subtraction, whichever register holds the minuend (R107, R109). -/
theorem subtracts_of_exec (h : exec i s = .next (s.setResultAndFlag x (a - b) (noBorrowFlag a b)).advance) :
    ∃ t, exec i s = .next t ∧ (t.getV flagReg).toNat = (if a.toNat ≥ b.toNat then 1 else 0) ∧
      (x ≠ flagReg → ((t.getV x).toNat : Int) = ((a.toNat : Int) - (b.toNat : Int)) % 256) ∧
      t.pc = s.pc + 2 ∧ Frame { regs := [x, flagReg] } s t := by
  obtain ⟨t, ht, hflag, hres, hpc, hframe⟩ := writes_of_exec_setResultAndFlag h
  exact ⟨t, ht, hflag ▸ toNat_noBorrowFlag a b, fun hx => hres hx ▸ toNat_sub_eq_emod a b, hpc, hframe⟩

end shapes

/-! ### The instructions as updates of the state -/

section exec
variable (x y : Nibble) (nn : Byte) (s : State)

theorem exec_ldImm : exec (.ldImm x nn) s = .next (s.setV x nn).advance := rfl

theorem exec_addImm : exec (.addImm x nn) s = .next (s.setV x (s.getV x + nn)).advance := rfl

theorem exec_ldReg : exec (.ldReg x y) s = .next (s.setV x (s.getV y)).advance := rfl

theorem exec_orReg : exec (.orReg x y) s = .next (s.setV x (s.getV x ||| s.getV y)).advance := rfl

theorem exec_andReg : exec (.andReg x y) s = .next (s.setV x (s.getV x &&& s.getV y)).advance := rfl

theorem exec_xorReg : exec (.xorReg x y) s = .next (s.setV x (s.getV x ^^^ s.getV y)).advance := rfl

theorem exec_addReg : exec (.addReg x y) s =
    .next (s.setResultAndFlag x (s.getV x + s.getV y) (carryFlag (s.getV x) (s.getV y))).advance := rfl

theorem exec_subReg : exec (.subReg x y) s =
    .next (s.setResultAndFlag x (s.getV x - s.getV y) (noBorrowFlag (s.getV x) (s.getV y))).advance := rfl

theorem exec_subnReg : exec (.subnReg x y) s =
    .next (s.setResultAndFlag x (s.getV y - s.getV x) (noBorrowFlag (s.getV y) (s.getV x))).advance := rfl

theorem exec_shr : exec (.shr x y) s =
    .next (s.setResultAndFlag x (s.shiftSource x y >>> 1) (rightShiftFlag (s.shiftSource x y))).advance := rfl

theorem exec_shl : exec (.shl x y) s =
    .next (s.setResultAndFlag x (s.shiftSource x y <<< 1) (leftShiftFlag (s.shiftSource x y))).advance := rfl

end exec

/-! ### One register written -/

/-- Settles O22: the byte written is the immediate. -/
theorem loadImmediateSetsRegister : Obligations.LoadImmediateSetsRegister :=
  fun x nn s => ⟨decodeWith_encode_of_defined s.config (i := .ldImm x nn) (by simp),
    writes_of_exec_setV (exec_ldImm x nn s)⟩

/-- Settles O23: the byte written is the sum, and VF is outside the footprint unless it is the destination. -/
theorem addImmediateWrapsWithoutFlag : Obligations.AddImmediateWrapsWithoutFlag := by
  intro x nn s
  obtain ⟨t, ht, hsum, hpc, hregs, hother⟩ := writes_of_exec_setV (exec_addImm x nn s)
  have hflag : x ≠ flagReg → t.getV flagReg = s.getV flagReg := fun hx => hregs flagReg (by simpa using hx.symm)
  exact ⟨decodeWith_encode_of_defined s.config (i := .addImm x nn) (by simp), t, ht,
    hsum ▸ BitVec.toNat_add .., hflag, hpc, hregs, hother⟩

/-- Settles O24: the byte written is the other register. -/
theorem copyRegisterSetsDestination : Obligations.CopyRegisterSetsDestination :=
  fun x y s => ⟨decodeWith_encode_of_defined s.config (i := .ldReg x y) (by simp),
    writes_of_exec_setV (exec_ldReg x y s)⟩

/-- Settles O25: the byte written is the OR, the AND or the XOR, of which each bit is that of the two bits. -/
theorem logicIsBitwiseWithoutFlag : Obligations.LogicIsBitwiseWithoutFlag := by
  intro x y s
  refine ⟨decodeWith_encode_of_defined s.config (i := .orReg x y) (by simp),
    decodeWith_encode_of_defined s.config (i := .andReg x y) (by simp),
    decodeWith_encode_of_defined s.config (i := .xorReg x y) (by simp), ?or, ?and, ?xor⟩
  case or =>
    obtain ⟨t, ht, hbyte, hrest⟩ := writes_of_exec_setV (exec_orReg x y s)
    exact ⟨t, ht, fun _ => hbyte ▸ BitVec.getLsbD_or, hrest⟩
  case and =>
    obtain ⟨t, ht, hbyte, hrest⟩ := writes_of_exec_setV (exec_andReg x y s)
    exact ⟨t, ht, fun _ => hbyte ▸ BitVec.getLsbD_and, hrest⟩
  case xor =>
    obtain ⟨t, ht, hbyte, hrest⟩ := writes_of_exec_setV (exec_xorReg x y s)
    exact ⟨t, ht, fun _ => hbyte ▸ BitVec.getLsbD_xor, hrest⟩

/-! ### A result and a flag -/

/-- Settles O26: the result is the sum and the flag its carry. -/
theorem addSetsCarryFlag : Obligations.AddSetsCarryFlag := by
  intro x y s
  obtain ⟨t, ht, hflag, hsum, hrest⟩ := writes_of_exec_setResultAndFlag (exec_addReg x y s)
  exact ⟨decodeWith_encode_of_defined s.config (i := .addReg x y) (by simp), t, ht,
    hflag ▸ toNat_carryFlag _ _, fun hx => hsum hx ▸ BitVec.toNat_add .., hrest⟩

/-- Settles O27: a subtraction with `V[x]` the minuend. -/
theorem subSetsNoBorrowFlag : Obligations.SubSetsNoBorrowFlag :=
  fun x y s => ⟨decodeWith_encode_of_defined s.config (i := .subReg x y) (by simp),
    subtracts_of_exec (exec_subReg x y s)⟩

/-- Settles O28: a subtraction with `V[y]` the minuend. -/
theorem subnSetsNoBorrowFlag : Obligations.SubnSetsNoBorrowFlag :=
  fun x y s => ⟨decodeWith_encode_of_defined s.config (i := .subnReg x y) (by simp),
    subtracts_of_exec (exec_subnReg x y s)⟩

/-- Settles O29: the result is half the shift source and the flag its lowest bit; a shift in place has no `y` in its
source. -/
theorem shiftRightSetsFlag : Obligations.ShiftRightSetsFlag := by
  intro x y s
  refine ⟨decodeWith_encode_of_defined s.config (i := .shr x y) (by simp), ?effect, fun h z => ?ignoresY⟩
  case effect =>
    obtain ⟨t, ht, hflag, hres, hrest⟩ := writes_of_exec_setResultAndFlag (exec_shr x y s)
    rw [← toNat_shiftSource]
    refine ⟨t, ht, hflag ▸ toNat_rightShiftFlag _, fun hx => ?_, hrest⟩
    rw [hres hx, BitVec.toNat_ushiftRight, Nat.shiftRight_one]
  case ignoresY => simp only [exec_shr, shiftSource_in_place h]

/-- Settles O30: the result is twice the shift source modulo 256 and the flag its highest bit; a shift in place has no
`y` in its source. -/
theorem shiftLeftSetsFlag : Obligations.ShiftLeftSetsFlag := by
  intro x y s
  refine ⟨decodeWith_encode_of_defined s.config (i := .shl x y) (by simp), ?effect, fun h z => ?ignoresY⟩
  case effect =>
    obtain ⟨t, ht, hflag, hres, hrest⟩ := writes_of_exec_setResultAndFlag (exec_shl x y s)
    rw [← toNat_shiftSource]
    refine ⟨t, ht, hflag ▸ toNat_leftShiftFlag _, fun hx => ?_, hrest⟩
    rw [hres hx, BitVec.toNat_shiftLeft, Nat.shiftLeft_eq, pow_one]
  case ignoresY => simp only [exec_shl, shiftSource_in_place h]

end Sys2Proof.Machine
end

section
/-! SUPPORT. Proofs for the display (43_display.md): a flag that answers a question, the state a draw leaves, the place
of a sprite bit as the rule computes it; then CLS and the three statements about DRW. -/

namespace Sys2Proof.Machine

/-- A flag that answers whether `P` holds: 1 when it does, 0 when it does not (R15). -/
theorem flagOf_of_iff {b : Bool} {P : Prop} (h : b = true ↔ P) : (P → flagOf b = 1#8) ∧ (¬ P → flagOf b = 0#8) :=
  ⟨fun hp => if_pos (h.2 hp), fun hp => if_neg (mt h.1 hp)⟩

/-! ### The state a draw leaves -/

/-- The next state of a draw in bounds: framebuffer, then VF, then `PC` (R122, D21). -/
def State.drawn (s : State) (x y n : Nibble) : State :=
  ({ s with fb := (s.drawing x y n).fb }.setV flagReg (flagOf (s.drawing x y n).collision)).advance

section drawn
variable (x y n : Nibble) (s : State)

/-- DRW as one guarded answer (R122, R163). -/
theorem exec_drw : exec (.drw x y n) s =
    if blockInBounds s.i n.toNat then .next (s.drawn x y n) else raise .memOutOfBounds := rfl

@[simp] theorem drawn_i : (s.drawn x y n).i = s.i := rfl
@[simp] theorem drawn_mem : (s.drawn x y n).mem = s.mem := rfl
@[simp] theorem drawn_config : (s.drawn x y n).config = s.config := rfl

theorem drawn_getV_of_ne {r : Nibble} (hr : r ≠ flagReg) : (s.drawn x y n).getV r = s.getV r :=
  (getV_setV _ flagReg r _).trans (if_neg hr)

/-- Every pixel of the framebuffer is XORed with the sprite mask (R125). -/
theorem drawn_pixel (px : Fin 64) (py : Fin 32) :
    (s.drawn x y n).pixel px py = (s.pixel px py ^^ spriteCovers s x y n px py) := by
  obtain ⟨hpixel, -, -⟩ := drawing_spec s x y n
  exact hpixel px py

/-- VF answers whether the sprite mask meets a set pixel (R125). -/
theorem drawn_flag :
    ((∃ px py, spriteCovers s x y n px py = true ∧ s.pixel px py = true) → (s.drawn x y n).getV flagReg = 1#8) ∧
    (¬ (∃ px py, spriteCovers s x y n px py = true ∧ s.pixel px py = true) →
      (s.drawn x y n).getV flagReg = 0#8) := by
  obtain ⟨-, hcollision, -⟩ := drawing_spec s x y n
  have hread : (s.drawn x y n).getV flagReg = flagOf (s.drawing x y n).collision :=
    (getV_setV _ flagReg flagReg _).trans (if_pos rfl)
  rw [hread]
  exact flagOf_of_iff hcollision

theorem frame_drawn : Frame { regs := [flagReg], screen := true } s (s.drawn x y n) :=
  (((Frame.refl _ s).setScreen rfl _).setV (List.mem_singleton_self _) _).advance

/-- A draw reads what it does not write: after it the same sprite lies at the same place, unless a coordinate was in
VF (R123). -/
theorem spriteCovers_drawn (hx : x ≠ flagReg) (hy : y ≠ flagReg) (px : Fin 64) (py : Fin 32) :
    spriteCovers (s.drawn x y n) x y n px py = spriteCovers s x y n px py := by
  simp only [spriteCovers, drawn_config, drawn_mem, drawn_i, drawn_getV_of_ne x y n s hx,
    drawn_getV_of_ne x y n s hy]

end drawn

/-! ### The place of a sprite bit -/

/-- The coordinate of a sprite bit along one axis: with DRAW_WRAPS modulo the size of the screen, else the plain sum
(R124, D8). -/
abbrev spriteCoordinate (wraps : Bool) (size origin offset : Nat) : Nat :=
  if wraps = true then (origin + offset) % size else origin + offset

/-- A sprite bit is drawn at its two coordinates when both are on the screen (R124, D8). -/
theorem spritePixel_eq_dite (p : Config.Params) (x0 y0 i j : Nat) : spritePixel p x0 y0 i j =
    if h : spriteCoordinate p.drawWraps 64 x0 j < 64 ∧ spriteCoordinate p.drawWraps 32 y0 i < 32 then
      some (⟨spriteCoordinate p.drawWraps 64 x0 j, h.1⟩, ⟨spriteCoordinate p.drawWraps 32 y0 i, h.2⟩)
    else none := by
  cases hw : p.drawWraps with
  | true =>
    have hon : spriteCoordinate true 64 x0 j < 64 ∧ spriteCoordinate true 32 y0 i < 32 :=
      ⟨Nat.mod_lt _ (by decide), Nat.mod_lt _ (by decide)⟩
    rw [dif_pos hon]
    exact spritePixel_of_drawWraps p x0 y0 i j hw
  | false => exact if_neg (by simp [hw])

/-! ### The display instructions -/

/-- Settles O32: the new framebuffer is the cleared screen, and CLS makes its one call in every state. -/
theorem clearScreenClearsAll : Obligations.ClearScreenClearsAll :=
  fun s => ⟨decodeGroup0_cls s.config, rfl, _, rfl, pixel_clear, rfl, ((Frame.refl _ s).setScreen rfl _).advance⟩

/-- Settles O33: in bounds the next state is the drawn one; out of bounds the fatal condition of R163 (b) is met. -/
theorem drawXorsSprite : Obligations.DrawXorsSprite := by
  refine fun x y n s => ⟨decodeWith_encode_of_defined s.config (i := .drw x y n) (by simp), fun hin => ?inBounds,
    fun hn hout => ?outOfBounds⟩
  case inBounds =>
    have hblock : blockInBounds s.i n.toNat = true := (blockInBounds_iff s.i n.toNat).2 (by omega)
    obtain ⟨hmeets, hmisses⟩ := drawn_flag x y n s
    exact ⟨_, if_pos hblock, drawn_pixel x y n s, hmeets, hmisses, rfl, frame_drawn x y n s⟩
  case outOfBounds => exact (exec_fault_iff _ s _).2 (if_pos ⟨hn, hout⟩)

/-- Settles O34: the second draw XORs the same mask, so it meets a set pixel where the first one set a clear pixel. -/
theorem drawTwiceRestores : Obligations.DrawTwiceRestores := by
  intro x y n s t hx hy hfirst
  rw [exec_drw] at hfirst
  obtain ⟨hblock, rfl⟩ := next_of_guard hfirst
  have hmask := spriteCovers_drawn x y n s hx hy
  have hmeets : ∀ px py, (spriteCovers s x y n px py = true ∧ (s.drawn x y n).pixel px py = true) ↔
      (spriteCovers s x y n px py = true ∧ s.pixel px py = false) := fun px py =>
    and_congr_right fun hcovers => by simp [drawn_pixel, hcovers]
  have hflag := drawn_flag x y n (s.drawn x y n)
  simp only [hmask, hmeets] at hflag
  refine ⟨_, if_pos hblock, fun px py => ?_, hflag⟩
  calc ((s.drawn x y n).drawn x y n).pixel px py
      = ((s.pixel px py ^^ spriteCovers s x y n px py) ^^ spriteCovers s x y n px py) := by
        rw [drawn_pixel, hmask, drawn_pixel]
    _ = s.pixel px py := by rw [Bool.xor_assoc, Bool.xor_self, Bool.xor_false]

/-- Settles O35: the calls are those of the rows in order, each read at the place of its bit. -/
theorem drawCallsInOrder : Obligations.DrawCallsInOrder := by
  intro x y n s
  obtain ⟨-, -, hcalls⟩ := drawing_spec s x y n
  refine hcalls.trans (List.flatMap_congr fun i _ => List.filterMap_congr fun j _ => ?_)
  have hplace := spritePixel_eq_dite s.config ((s.getV x).toNat % 64) ((s.getV y).toNat % 32) i j
  simp only [State.originColumn, State.originRow, hplace]
  split
  · exact apply_dite (Option.map _) _ _ _
  · rw [dite_eq_ite, ite_self]

end Sys2Proof.Machine
end

section
/-! SUPPORT. Proofs for the index register and memory (44_index_memory.md): the register block stored at `I` and loaded
from there; what an instruction leaves that sets `I`, and which leave it alone; the decimal digits. Each frame is the
instruction's row of R32. -/

namespace Sys2Proof.Machine

/-! ### The register block -/

/-- LD Vx, [I] in bounds loads the register block and advances (R135). -/
theorem exec_loadRegs_inBounds {x : Nibble} {s : State} (h : s.i.toNat + x.toNat ≤ 4095) :
    exec (.loadRegs x) s = .next (s.setVFrom 0 (Memory.getBlock s.mem s.i.toNat (x.toNat + 1))).advance :=
  if_pos ((blockInBounds_iff s.i (x.toNat + 1)).2 (.inr h))

/-- A loaded register block is the bytes from `a` on in `V[0]` to `V[x]`, and the registers above keep theirs (R135). -/
theorem getV_setVFrom_getBlock (s : State) (m : Memory) (a : Nat) (x r : Nibble) :
    (s.setVFrom 0 (Memory.getBlock m a (x.toNat + 1))).getV r =
      if r.toNat ≤ x.toNat then Memory.get m (a + r.toNat) else s.getV r := by
  have hx : 0 + (Memory.getBlock m a (x.toNat + 1)).length ≤ 16 := by
    have := x.isLt
    rw [length_getBlock]; omega
  rw [getV_setVFrom _ s 0 r hx]
  simp

/-- Settles O40: in bounds the stored block is read back byte by byte; out of bounds the fatal condition of R163 (d) is
met. -/
theorem storeRegistersAtI : Obligations.StoreRegistersAtI := by
  refine fun x s => ⟨decodeWith_encode_of_defined s.config (i := .storeRegs x) (by simp), fun hin => ?inBounds,
    fun hout => (exec_fault_iff _ s _).2 (if_pos hout)⟩
  case inBounds =>
    have hexec := exec_storeRegs_inBounds hin
    exact ⟨_, hexec, fun r hr => memory_get_setBlock_registersTo s.mem s.i.toNat s hr, rfl,
      writesStayInAccessTable _ s _ hexec⟩

/-- Settles O41: in bounds the block is loaded register by register; out of bounds the fatal condition of R163 (d) is
met. -/
theorem loadRegistersFromI : Obligations.LoadRegistersFromI := by
  refine fun x s => ⟨decodeWith_encode_of_defined s.config (i := .loadRegs x) (by simp), fun hin => ?inBounds,
    fun hout => (exec_fault_iff _ s _).2 (if_pos hout)⟩
  case inBounds =>
    have hexec := exec_loadRegs_inBounds hin
    exact ⟨_, hexec, getV_setVFrom_getBlock s s.mem s.i.toNat x, by rw [advance_pc, setVFrom_pc],
      writesStayInAccessTable _ s _ hexec⟩

/-- Settles O42: a store that completes was in bounds, so the load at the same `I` is, and it reads the stored bytes. -/
theorem storeThenLoadRestores : Obligations.StoreThenLoadRestores := by
  intro x s t u hstore hi hmem
  obtain ⟨-, hinStore, hoverStore⟩ := storeRegistersAtI x s
  obtain ⟨-, hinLoad, -⟩ := loadRegistersFromI x u
  have hbounds : s.i.toNat + x.toNat ≤ 4095 := by
    by_contra hout
    have hfault := hoverStore (by omega)
    rw [hstore] at hfault
    cases hfault
  obtain ⟨t', ht', hstored, -⟩ := hinStore hbounds
  obtain rfl : t = t' := Host.Outcome.next.inj (hstore.symm.trans ht')
  obtain ⟨w, hw, hloaded, -⟩ := hinLoad (hi ▸ hbounds)
  refine ⟨w, hw, fun r => ?_⟩
  rw [hloaded r, hi, hmem]
  exact if_ctx_congr Iff.rfl (hstored r) fun _ => rfl

/-! ### The index register -/

/-- An instruction that sets `I`: that, `PC`, and nothing else (R130 to R132). -/
theorem writes_of_exec_setI {i : Instr} {s : State} {w : Word} {k : Nat}
    (h : exec i s = .next { s with i := w }.advance) (hw : w.toNat = k) :
    ∃ t, exec i s = .next t ∧ t.i.toNat = k ∧ t.pc = s.pc + 2 ∧ Frame { i := true } s t :=
  ⟨_, h, hw, rfl, ((Frame.refl _ s).setI rfl w).advance⟩

theorem exec_ldI (nnn : Imm12) (s : State) : exec (.ldI nnn) s = .next { s with i := zext12 nnn }.advance := rfl

theorem exec_addIVx (x : Nibble) (s : State) :
    exec (.addIVx x) s = .next { s with i := s.i + zext8 (s.getV x) }.advance := rfl

theorem exec_ldF (x : Nibble) (s : State) :
    exec (.ldF x) s = .next { s with i := s.glyphAddress (s.lowNibble x) }.advance := rfl

/-- The sum of `Fx1E` is reduced modulo 2^16 and no further (R131). -/
theorem toNat_add_zext8 (a : Word) (b : Byte) : (a + zext8 b).toNat = (a.toNat + b.toNat) % 65536 := by
  rw [BitVec.toNat_add, BitVec.toNat_setWidth_of_le (by decide)]

/-- Settles O36: the value set is the operand zero-extended. -/
theorem loadIndexSetsI : Obligations.LoadIndexSetsI :=
  fun nnn s => ⟨decodeWith_encode_of_defined s.config (i := .ldI nnn) (by simp),
    writes_of_exec_setI (exec_ldI nnn s) (toNat_zext12 nnn)⟩

/-- Settles O37: the value set is the sum, and every register is outside the footprint. -/
theorem addToIndexWraps : Obligations.AddToIndexWraps :=
  fun x s => ⟨decodeWith_encode_of_defined s.config (i := .addIVx x) (by simp),
    writes_of_exec_setI (exec_addIVx x s) (toNat_add_zext8 s.i (s.getV x))⟩

/-- Settles O38: the value set is the glyph address of the low nibble, which does not wrap for any FONT_BASE. -/
theorem glyphAddressOfDigit : Obligations.GlyphAddressOfDigit := by
  intro x s
  have haddress := toNat_glyphAddress s (s.lowNibble x)
  rw [toNat_lowNibble] at haddress
  exact ⟨decodeWith_ldF s.config x, writes_of_exec_setI (exec_ldF x s) haddress⟩

/-- An instruction whose row of R32 does not write `I` leaves it unchanged. -/
theorem i_eq_of_exec {i : Instr} {s t : State} (hrow : (writeSet i s).i = false) (h : exec i s = .next t) :
    t.i = s.i := by
  obtain ⟨-, hi, -⟩ := writesStayInAccessTable i s t h
  exact hi hrow

/-- Settles O43: none of the four rows of R32 writes `I`. -/
theorem indexSurvivesAccess : Obligations.IndexSurvivesAccess := by
  rintro x y n s t (h | h | h | h)
  all_goals exact i_eq_of_exec rfl h

/-! ### The decimal digits -/

/-- LD B, Vx in bounds stores the three digits and advances (R133). -/
theorem exec_ldB_inBounds {x : Nibble} {s : State} (h : s.i.toNat + 2 ≤ 4095) :
    exec (.ldB x) s = .next { s with mem := Memory.setBlock s.mem s.i.toNat (decimalDigits (s.getV x)) }.advance :=
  if_pos ((blockInBounds_iff s.i 3).2 (.inr h))

/-- The byte `k` places into a stored block is byte `k` of the list (R43, R45). -/
theorem memory_get_setBlock_inside (m : Memory) (a : Nat) (bs : List Byte) {k : Nat} (h : k < bs.length) :
    Memory.get (Memory.setBlock m a bs) (a + k) = bs[k] := by
  rw [memory_get_setBlock, dif_pos (by omega)]
  simp only [Nat.add_sub_cancel_left]

/-- A stored decimal is read back digit by digit, since a digit is at most the byte (R133). -/
theorem toNat_get_setBlock_decimalDigits (m : Memory) (a : Nat) (b : Byte) :
    (Memory.get (Memory.setBlock m a (decimalDigits b)) a).toNat = b.toNat / 100 ∧
    (Memory.get (Memory.setBlock m a (decimalDigits b)) (a + 1)).toNat = b.toNat / 10 % 10 ∧
    (Memory.get (Memory.setBlock m a (decimalDigits b)) (a + 2)).toNat = b.toNat % 10 := by
  have hread := fun k (hk : k < 3) => memory_get_setBlock_inside m a (decimalDigits b) hk
  have hfits : ∀ d ≤ b.toNat, (BitVec.ofNat 8 d).toNat = d :=
    fun d hd => Nat.mod_eq_of_lt (Nat.lt_of_le_of_lt hd b.isLt)
  exact ⟨hread 0 (by decide) ▸ hfits (b.toNat / 100) (by omega),
    hread 1 (by decide) ▸ hfits (b.toNat / 10 % 10) (by omega),
    hread 2 (by decide) ▸ hfits (b.toNat % 10) (by omega)⟩

/-- Settles O39: in bounds the three digits are stored; out of bounds the fatal condition of R163 (c) is met. -/
theorem decimalDigitsAtI : Obligations.DecimalDigitsAtI := by
  refine fun x s => ⟨decodeWith_encode_of_defined s.config (i := .ldB x) (by simp), fun hin => ?inBounds,
    fun hout => (exec_fault_iff _ s _).2 (if_pos hout)⟩
  case inBounds =>
    have hexec := exec_ldB_inBounds (x := x) hin
    obtain ⟨hhundreds, htens, hones⟩ := toNat_get_setBlock_decimalDigits s.mem s.i.toNat (s.getV x)
    exact ⟨_, hexec, hhundreds, htens, hones, rfl, writesStayInAccessTable _ s _ hexec⟩

end Sys2Proof.Machine
end

section
/-! SUPPORT. Proofs for the timers and the keypad (45_timers_keypad.md): the three timer moves as updates of the state,
and what each leaves. -/

namespace Sys2Proof.Machine

theorem exec_ldVxDT (x : Nibble) (s : State) : exec (.ldVxDT x) s = .next (s.setV x s.dt).advance := rfl

theorem exec_ldDTVx (x : Nibble) (s : State) : exec (.ldDTVx x) s = .next { s with dt := s.getV x }.advance := rfl

theorem exec_ldSTVx (x : Nibble) (s : State) : exec (.ldSTVx x) s = .next { s with st := s.getV x }.advance := rfl

/-- Settles O45: the words are the encodings of the moves, each of which updates its destination and advances; none of
them is an instruction with a port call. -/
theorem timerMoves : Obligations.TimerMoves := by
  intro x s
  refine ⟨decodeWith_encode_of_defined s.config (i := .ldVxDT x) (by simp),
    decodeWith_encode_of_defined s.config (i := .ldDTVx x) (by simp),
    decodeWith_encode_of_defined s.config (i := .ldSTVx x) (by simp), ?readDelay, ?setDelay, ?setSound, rfl, rfl, rfl⟩
  case readDelay => exact writes_of_exec_setV (exec_ldVxDT x s)
  case setDelay => exact ⟨_, exec_ldDTVx x s, rfl, rfl, ((Frame.refl _ s).setDT rfl (s.getV x)).advance⟩
  case setSound => exact ⟨_, exec_ldSTVx x s, rfl, rfl, ((Frame.refl _ s).setST rfl (s.getV x)).advance⟩

end Sys2Proof.Machine
end

section
/-! SUPPORT. Proofs for the unknown opcode (46_unknown_opcode.md): it advances, and so its tick completes. -/

namespace Sys2Proof.Machine

theorem exec_unknown (w : Word) (s : State) : exec (.unknown w) s = .next s.advance := rfl

/-- The tick of a fetched word whose instruction completes (R73). -/
theorem tick_eq_completed {s t : State} {w : Word} {i : Instr} (hf : fetchWord s = some w)
    (hd : decodeWith s.config w = i) (h : exec i s = .next t) : tick s = .ok (completed i s t) := by
  subst hd
  rw [tick, hf]
  simp only [h]

/-- Settles O47: no row leaves the decoder only the unknown opcode, whose one update is the advance of `PC`; the tick
that fetched it completes, with no key-wait and no port call. -/
theorem unknownOpcodeOnlyAdvances : Obligations.UnknownOpcodeOnlyAdvances := by
  intro w s hdef
  have hrow : ∀ r ∈ definedRows, w &&& r.mask ≠ r.value := (isDefinedWord_eq_false_iff w).1 hdef
  refine ⟨fun hexact => decodeWith_eq_unknown_of_no_row hexact hrow, rfl, s.advance, exec_unknown w s, advance_pc s,
    (Frame.refl {} s).advance, fun hdecode hfetch => ?tick⟩
  case tick => exact tick_eq_completed hfetch hdecode (exec_unknown w s)

end Sys2Proof.Machine
end

section
/-! SUPPORT. Proofs for the fatal conditions and the port answers (60_exceptions.md): when each fatal condition is met,
what a tick can answer; then the instructions that ask a port, and the timers. -/

namespace Sys2Proof.Machine

/-! ### Which instruction meets which fatal condition -/

/-- CALL is the only arm that answers the overflow (R161). -/
theorem fatalCondition_eq_stackOverflow_iff (i : Instr) (s : State) :
    fatalCondition i s = some .stackOverflow ↔ (∃ nnn, i = .call nnn) ∧ s.sp = s.config.stackCapacity := by
  cases i <;> simp [fatalCondition]

/-- RET is the only arm that answers the underflow (R162). -/
theorem fatalCondition_eq_stackUnderflow_iff (i : Instr) (s : State) :
    fatalCondition i s = some .stackUnderflow ↔ i = .ret ∧ s.sp = 0 := by
  cases i <;> simp [fatalCondition]

/-- Four arms answer the memory fault (R163 (b) to (d)); what is left of the two whose bound has a constant is
arithmetic. -/
theorem fatalCondition_eq_memOutOfBounds_iff (i : Instr) (s : State) :
    fatalCondition i s = some .memOutOfBounds ↔
      (∃ x y n, i = .drw x y n ∧ n.toNat ≥ 1 ∧ s.i.toNat + n.toNat - 1 > 4095) ∨
      (∃ x, i = .ldB x ∧ s.i.toNat + 2 > 4095) ∨
      (∃ x, (i = .storeRegs x ∨ i = .loadRegs x) ∧ s.i.toNat + x.toNat > 4095) := by
  cases i with
  | drw | ldB =>
    simp [fatalCondition]
    omega
  | _ => simp [fatalCondition]

/-- A step whose fetch is in bounds is the decoded instruction (R73). -/
theorem step_inBounds {s : State} (h : s.pc.toNat ≤ 4094) : step s =
    exec (decodeWith s.config (Memory.get s.mem s.pc.toNat ++ Memory.get s.mem (s.pc.toNat + 1))) s :=
  step_eq_exec (fetchWord_inBounds s h) rfl

/-- Settles O11: an instruction faults with the fatal condition it meets, and a step with that of its fetch or else of
its instruction. -/
theorem fatalResultsExactly : Obligations.FatalResultsExactly := by
  refine ⟨fun i s => ?_, fun s f => ?_⟩
  · rw [exec_fault_iff, exec_fault_iff, exec_fault_iff]
    exact ⟨fatalCondition_eq_stackOverflow_iff i s, fatalCondition_eq_stackUnderflow_iff i s,
      fatalCondition_eq_memOutOfBounds_iff i s⟩
  · obtain hpc | hpc := Nat.lt_or_ge 4094 s.pc.toNat
    · simp [step_outOfBounds hpc, hpc, Nat.not_le_of_gt hpc, eq_comm]
    · simp [step_inBounds hpc, Nat.not_lt_of_ge hpc, hpc]

/-! ### No refusal, and precise faults -/

theorem exec_ne_refused (i : Instr) (s : State) (r : Refusal) : exec i s ≠ .refused r := by
  obtain ⟨-, t, ht⟩ | ⟨f, -, hf⟩ := exec_completes_or_faults i s
  · simp [ht]
  · simp [hf]

/-- Settles O12: an instruction completes or faults, and a step whose fetch does not fault is one. -/
theorem executionIsNeverRefused : Obligations.ExecutionIsNeverRefused := by
  refine fun i s r => ⟨exec_ne_refused i s r, ?_⟩
  obtain hpc | hpc := Nat.lt_or_ge 4094 s.pc.toNat
  · simp [step_outOfBounds hpc]
  · rw [step_inBounds hpc]
    exact exec_ne_refused _ s r

/-- A tick answers a fatal condition in the state it began with, or completes an instruction (R73, R166). -/
theorem tick_faults_or_completes (s : State) :
    (∃ f, tick s = .ok (faulted f s)) ∨ ∃ i t, tick s = .ok (completed i s t) := by
  obtain hpc | hpc := Nat.lt_or_ge 4094 s.pc.toNat
  · exact .inl ⟨_, tick_outOfBounds hpc⟩
  · have hf := fetchWord_inBounds s hpc
    obtain ⟨-, t, ht⟩ | ⟨f, -, he⟩ := exec_completes_or_faults (decodeWith s.config _) s
    · exact .inr ⟨_, t, tick_eq_completed hf rfl ht⟩
    · exact .inl ⟨f, by rw [tick, hf]; simp only [he]⟩

/-- A completed tick answers OK or WAIT_KEY, and neither is fatal (R160). -/
theorem completed_not_fatal (i : Instr) (s t : State) : (completed i s t).result.isFatal = false := by
  unfold completed
  split
  · rfl
  · rfl

/-- Settles O13: a fatal answer is that of a fault, which hands back the state it began with. -/
theorem faultsArePrecise : Obligations.FaultsArePrecise := by
  intro s o ho hfatal
  obtain ⟨f, hf⟩ | ⟨i, t, ht⟩ := tick_faults_or_completes s
  · obtain rfl : faulted f s = o := Except.ok.inj (hf.symm.trans ho)
    exact ⟨rfl, rfl, hf⟩
  · obtain rfl : completed i s t = o := Except.ok.inj (ht.symm.trans ho)
    rw [completed_not_fatal] at hfatal
    cases hfatal

/-! ### Instructions that ask a port -/

theorem lowNibble_eq_setWidth (s : State) (x : Nibble) : s.lowNibble x = (s.getV x).setWidth 4 :=
  BitVec.eq_of_toNat_eq ((toNat_lowNibble s x).trans (BitVec.toNat_setWidth 4 _).symm)

theorem exec_skp (x : Nibble) (s : State) :
    exec (.skp x) s = .next (s.queried.skip (s.keyPressedAnswer (s.lowNibble x))) := rfl

theorem exec_sknp (x : Nibble) (s : State) :
    exec (.sknp x) s = .next (s.queried.skip !s.keyPressedAnswer (s.lowNibble x)) := rfl

theorem exec_rnd (x : Nibble) (nn : Byte) (s : State) :
    exec (.rnd x nn) s = .next (s.queried.setV x (s.randomByteAnswer &&& nn)).advance := rfl

/-- The counter is all a query moves (log 1). -/
theorem frame_queried (s : State) : Frame { ports := true } s s.queried := (Frame.refl _ s).queried rfl

/-- Settles O21: each skip follows the one answer it asked for, SKNP its opposite. -/
theorem skipOnKey : Obligations.SkipOnKey := by
  intro x s
  refine ⟨decodeWith_encode_of_defined s.config (i := .skp x) (by simp),
    decodeWith_encode_of_defined s.config (i := .sknp x) (by simp), ?_⟩
  rw [← lowNibble_eq_setWidth]
  exact ⟨rfl, rfl, ⟨_, exec_skp x s, skip_pc_ite s.queried _, rfl, (frame_queried s).skip _⟩,
    ⟨_, exec_sknp x s, skip_not_pc_ite s.queried _, rfl, (frame_queried s).skip _⟩⟩

/-- Settles O31: the byte written is the answer under the mask. -/
theorem randomIsMasked : Obligations.RandomIsMasked := by
  intro x nn s
  refine ⟨decodeWith_encode_of_defined s.config (i := .rnd x nn) (by simp), rfl, _, exec_rnd x nn s, ?_, rfl, rfl,
    writesStayInAccessTable _ s _ (exec_rnd x nn s)⟩
  exact (getV_setV s.queried x x _).trans (if_pos rfl)

theorem exec_ldVxK_none {s : State} (x : Nibble) (h : Config.keyAny s.portQueries = none) :
    exec (.ldVxK x) s = .next s.queried := by
  simp only [exec, execLdVxK, State.keyAnyAnswer, h]

theorem exec_ldVxK_some {s : State} (x : Nibble) {k : Nibble} (h : Config.keyAny s.portQueries = some k) :
    exec (.ldVxK x) s = .next (s.queried.setV x (k.setWidth 8)).advance := by
  simp only [exec, execLdVxK, State.keyAnyAnswer, h]

/-- The tick of a key-wait: WAIT_KEY exactly when no key is reported, and its one poll (R143). -/
theorem tick_ldVxK {x : Nibble} {s t : State} (hf : fetchWord s = some (formatXNN 0xF#4 x 0x0A#8))
    (h : exec (.ldVxK x) s = .next t) :
    tick s = .ok
      { result := if Config.keyAny s.portQueries = none then .waitKey else .ok
        state := t
        calls := [.keyAny (Config.keyAny s.portQueries)] } := by
  rw [tick_eq_completed hf (decodeWith_encode_of_defined s.config (i := .ldVxK x) (by simp)) h]
  simp [completed, waitsForKey, portCalls, State.keyAnyAnswer]

/-- Settles O46: on no key only the counter moves; on a key the register is written and `PC` advances. -/
theorem keyWaitHoldsUntilKey : Obligations.KeyWaitHoldsUntilKey := by
  intro x s
  refine ⟨decodeWith_encode_of_defined s.config (i := .ldVxK x) (by simp), ?_⟩
  cases hkey : Config.keyAny s.portQueries with
  | none =>
    have hexec := exec_ldVxK_none x hkey
    exact ⟨_, hexec, rfl, ⟨rfl, frame_queried s⟩, fun hf => (tick_ldVxK hf hexec).trans (by rw [hkey])⟩
  | some k =>
    have hexec := exec_ldVxK_some x hkey
    have hread := (getV_setV s.queried x x (k.setWidth 8)).trans (if_pos rfl)
    exact ⟨_, hexec, rfl, ⟨(congrArg BitVec.toNat hread).trans (BitVec.toNat_setWidth_of_le (by decide)), rfl,
      writesStayInAccessTable _ s _ hexec⟩, fun hf => (tick_ldVxK hf hexec).trans (by rw [hkey])⟩

/-! ### The timers -/

theorem toNat_timerDown (b : Byte) : (timerDown b).toNat = b.toNat - 1 := by
  unfold timerDown
  split
  · simp [*]
  · bv_omega

theorem writeSet_dt_eq_false {i : Instr} (s : State) (h : ∀ x, i ≠ .ldDTVx x) : (writeSet i s).dt = false := by
  cases i with
  | ldDTVx x => exact absurd rfl (h x)
  | _ => rfl

theorem writeSet_st_eq_false {i : Instr} (s : State) (h : ∀ x, i ≠ .ldSTVx x) : (writeSet i s).st = false := by
  cases i with
  | ldSTVx x => exact absurd rfl (h x)
  | _ => rfl

/-- Settles O54: the host operation lowers both timers, and the access table gives each timer one instruction that
writes it. -/
theorem timerDecrementSaturates : Obligations.TimerDecrementSaturates := by
  refine ⟨fun s => ⟨_, rfl, toNat_timerDown s.dt, toNat_timerDown s.st, rfl, ?frame⟩,
    fun i s t h => ?instruction⟩
  case frame => exact ((Frame.refl _ s).setDT rfl (timerDown s.dt)).setST rfl (timerDown s.st)
  case instruction =>
    obtain ⟨-, -, -, hdt, hst, -⟩ := writesStayInAccessTable i s t h
    exact ⟨fun hi => hdt (writeSet_dt_eq_false s hi), fun hi => hst (writeSet_st_eq_false s hi)⟩

end Sys2Proof.Machine
end

section
/-! SUPPORT. Proofs for the host operations (70_reset_and_hazards.md): what each leaves; then the forms that any run of
ticks and host operations keeps. -/

namespace Sys2Proof.Machine

/-! ### Loads and debug writes -/

theorem loadProgram_fits {bytes : List Byte} (s : State) (h : bytes.length ≤ 3584) :
    hostStep (.loadProgram bytes) s = .next { s with mem := Memory.setBlock s.mem 0x200 bytes } := if_pos h

theorem loadFont_fits {bytes : List Byte} {s : State} (hlen : bytes.length = 80)
    (hend : s.config.fontBase.toNat + 79 ≤ 4095) : hostStep (.loadFont bytes) s =
      .next { s with mem := Memory.setBlock s.mem s.config.fontBase.toNat bytes } := if_pos ⟨hlen, hend⟩

/-- A loaded block changes its own addresses and no other (R196, R197). -/
theorem frame_setBlock (s : State) (a : Nat) (bytes : List Byte) :
    Frame { mem := (List.range bytes.length).map fun k => a + k } s
      { s with mem := Memory.setBlock s.mem a bytes } :=
  (Frame.refl _ s).setBlock bytes a fun _ hk => List.mem_map_of_mem (List.mem_range.2 hk)

/-- Settles O55: each load within its contract is one block write, read back byte by byte; outside it the guard
refuses. -/
theorem loadsPlaceBytes : Obligations.LoadsPlaceBytes := by
  refine ⟨fun bytes s => ⟨fun hfits => ?program, fun hlong => if_neg (Nat.not_le_of_gt hlong)⟩,
    fun bytes s => ⟨fun hlen hend => ?font, fun hbad => if_neg ?badFont⟩,
    fun n w s => ⟨fun hsp => if_neg (Nat.not_le_of_gt hsp), fun hslot => if_neg (Nat.not_lt_of_ge hslot)⟩⟩
  case program =>
    exact ⟨_, loadProgram_fits s hfits, fun k hk => memory_get_setBlock_inside s.mem 0x200 bytes hk, rfl,
      frame_setBlock s 0x200 bytes⟩
  case font =>
    refine ⟨_, loadFont_fits hlen hend, fun d r hd hr => ?_, rfl, ?_⟩
    · rw [Nat.add_assoc]
      exact memory_get_setBlock_inside s.mem _ bytes (by omega)
    · rw [← hlen]
      exact frame_setBlock s _ bytes
  case badFont => exact fun ⟨hlen, hend⟩ => hbad.elim (· hlen) (Nat.not_lt_of_ge hend)

/-- The slot written by hand, and every other as before (R201). -/
theorem slot_set {s : State} (hs : StackShaped s) {k : Nat} (hk : k < s.config.stackCapacity) (w : Word) (j : Nat) :
    State.slot { s with stack := s.stack.set k w } j = if j = k then w else s.slot j := by
  obtain ⟨hlen, -⟩ := hs
  have hin : k < s.stack.length := hlen ▸ hk
  exact (getD_set_slot s.stack k j w).trans (by simp [hin, State.slot])

/-- Settles O56: each kind of write is one update of the state, inside the footprint of its element. -/
theorem debugWriteSetsOneElement : Obligations.DebugWriteSetsOneElement := by
  intro s
  have start := fun f => Frame.refl f s
  refine ⟨fun r b => ?v, fun w => ?i, fun w => ?pc, fun n hn => ?sp, fun k w hs hk => ?slot, fun b => ?dt,
    fun b => ?st, fun x y c => ?pixel, fun a b => ?mem⟩
  case v =>
    exact ⟨_, rfl, (getV_setV s r r b).trans (if_pos rfl), rfl, (start _).setV (List.mem_singleton_self r) b⟩
  case i => exact ⟨_, rfl, rfl, rfl, (start _).setI rfl w⟩
  case pc => exact ⟨_, rfl, rfl, (start _).jumpTo w⟩
  case sp => exact ⟨_, if_pos hn, rfl, rfl, rfl, (start _).setStack rfl s.stack n⟩
  case slot =>
    exact ⟨_, if_pos hk, rfl, rfl, slot_set hs hk w, List.length_set, (start _).setStack rfl (s.stack.set k w) s.sp⟩
  case dt => exact ⟨_, rfl, rfl, rfl, (start _).setDT rfl b⟩
  case st => exact ⟨_, rfl, rfl, rfl, (start _).setST rfl b⟩
  case pixel =>
    exact ⟨_, rfl, rfl, fun px py => pixel_setPixel s.fb x px y py c, (start _).setScreen rfl _⟩
  case mem =>
    exact ⟨_, rfl, (memory_get_set s.mem _ _ b).trans (if_pos rfl), rfl, frame_setBlock s a.toNat [b]⟩

/-! ### The forms along a run -/

/-- From `s` to `t` both forms are kept and the configuration is the same. -/
structure KeepsForms (s t : State) : Prop where
  memory : MemoryCanonical s → MemoryCanonical t
  stack : StackShaped s → StackShaped t
  config : t.config = s.config

theorem KeepsForms.refl (s : State) : KeepsForms s s := ⟨id, id, rfl⟩

theorem KeepsForms.trans {s t u : State} (hst : KeepsForms s t) (htu : KeepsForms t u) : KeepsForms s u :=
  ⟨htu.memory ∘ hst.memory, htu.stack ∘ hst.stack, htu.config.trans hst.config⟩

/-- Both forms are about memory, the stack and the configuration alone. -/
theorem KeepsForms.of_eq {s t : State} (hmem : t.mem = s.mem) (hsp : t.sp = s.sp) (hstack : t.stack = s.stack)
    (hconfig : t.config = s.config) : KeepsForms s t := by
  refine ⟨fun h => ?_, fun h => ?_, hconfig⟩
  · unfold MemoryCanonical
    rw [hmem]
    exact h
  · unfold StackShaped
    rw [hsp, hstack, hconfig]
    exact h

/-- A block written inside `MEM`. -/
theorem KeepsForms.setBlock {s : State} {a : Nat} {bytes : List Byte} (h : a + bytes.length ≤ 4096) :
    KeepsForms s { s with mem := Memory.setBlock s.mem a bytes } :=
  ⟨fun hs => memory_wf_setBlock bytes s.mem a hs h, id, rfl⟩

theorem keepsForms_reset (s : State) : KeepsForms s (resetOp s) := by
  obtain ⟨hmem, hstack, -⟩ := resetMeetsInvariants s.config
  exact ⟨fun _ => hmem, fun _ => hstack, rfl⟩

/-- A guarded host operation answers a next state only within its contract. -/
theorem next_of_contract {c : Prop} [Decidable c] {u t : State} {r : Refusal}
    (h : (if c then .next u else .refused r) = (.next t : Host.Outcome State Fault Refusal)) : c ∧ t = u := by
  split at h
  · exact ⟨‹c›, (Host.Outcome.next.inj h).symm⟩
  · cases h

theorem debugWrite_keepsForms {d : DebugWrite} {s t : State} (h : debugWrite d s = .next t) : KeepsForms s t := by
  cases d with
  | v | i | pc | dt | st | pixel =>
    obtain rfl := Host.Outcome.next.inj h
    exact .of_eq rfl rfl rfl rfl
  | sp n =>
    obtain ⟨hn, rfl⟩ := next_of_contract h
    exact ⟨id, fun ⟨hlen, _⟩ => ⟨hlen, hn⟩, rfl⟩
  | stack k w =>
    obtain ⟨-, rfl⟩ := next_of_contract h
    exact ⟨id, fun ⟨hlen, hle⟩ => ⟨List.length_set.trans hlen, hle⟩, rfl⟩
  | mem a b =>
    obtain rfl := Host.Outcome.next.inj h
    exact .setBlock (bytes := [b]) a.isLt

theorem hostStep_keepsForms {op : HostOp} {s t : State} (h : hostStep op s = .next t) : KeepsForms s t := by
  cases op with
  | timerDecrement =>
    obtain rfl := Host.Outcome.next.inj h
    exact .of_eq rfl rfl rfl rfl
  | reset =>
    obtain rfl := Host.Outcome.next.inj h
    exact keepsForms_reset s
  | loadProgram bytes =>
    obtain ⟨hfits, rfl⟩ := next_of_contract h
    exact .setBlock (Nat.add_le_add_left hfits Config.progBase)
  | loadFont bytes =>
    obtain ⟨⟨hlen, hend⟩, rfl⟩ := next_of_contract h
    simp only [Config.fontBytes, Config.lastAddress] at hlen hend
    exact .setBlock (by omega)
  | debugWrite d => exact debugWrite_keepsForms h

theorem step_keepsForms {s t : State} (h : step s = .next t) : KeepsForms s t := by
  obtain ⟨hmem, hstack⟩ := stepKeepsForms s t h
  obtain ⟨-, i, hi⟩ := exec_of_step_next h
  exact ⟨hmem, hstack, exec_config hi⟩

/-- A tick that ends in a fatal condition leaves the state as it was (R166). -/
theorem systemStep_keepsForms {e : Event} {s t : State} (h : systemStep e s = .next t) : KeepsForms s t := by
  cases e with
  | host op => exact hostStep_keepsForms h
  | tick =>
    unfold systemStep at h
    cases hstep : step s with
    | next u =>
      rw [hstep] at h
      obtain rfl := Host.Outcome.next.inj h
      exact step_keepsForms hstep
    | fault f =>
      rw [hstep] at h
      obtain rfl := Host.Outcome.next.inj h
      exact .refl s
    | refused r =>
      rw [hstep] at h
      cases h

/-- A run that completes has a first event that completes, and a run of the rest (R177). -/
theorem systemRun_cons_eq_next {e : Event} {es : List Event} {s t : State} (h : systemRun (e :: es) s = .next t) :
    ∃ u, systemStep e s = .next u ∧ systemRun es u = .next t := by
  unfold systemRun at h
  split at h
  · exact ⟨_, ‹_›, h⟩
  · cases h
  · cases h

theorem systemRun_keepsForms {es : List Event} {s t : State} (h : systemRun es s = .next t) : KeepsForms s t := by
  induction es generalizing s with
  | nil =>
    obtain rfl := Host.Outcome.next.inj h
    exact .refl s
  | cons e es ih =>
    obtain ⟨u, hfirst, hrest⟩ := systemRun_cons_eq_next h
    exact (systemStep_keepsForms hfirst).trans (ih hrest)

/-- Settles O50: every event keeps the forms, so by induction on the list every run does. -/
theorem systemKeepsForms : Obligations.SystemKeepsForms := by
  intro es s t h
  obtain ⟨hmem, hstack, hconfig⟩ := systemRun_keepsForms h
  exact ⟨hmem, hstack, hconfig⟩

end Sys2Proof.Machine
end

section
/-! SUPPORT. Proof for the sample words of 30_encoding.md section 5 and of the vectors. -/

namespace Sys2Proof.Machine

/-- Settles O5: each word is the encoding of a well-formed instruction, which its decoding gives back. -/
theorem sampleWordsDecode : Obligations.SampleWordsDecode := by
  have back : ∀ i : Instr, i.wf = true → decode (encode i) = i :=
    fun i hi => decodeInvertsEncode params i hi (.inl rfl)
  exact ⟨back .cls rfl, back .ret rfl, back (.jp 0x202#12) rfl, back (.call 0x300#12) rfl,
    back (.seImm 3#4 0x2A#8) rfl, back (.sneReg 1#4 2#4) rfl, back (.shr 1#4 2#4) rfl, back (.shl 1#4 2#4) rfl,
    back (.rnd 3#4 0x0F#8) rfl, back (.drw 1#4 2#4 2#4) rfl, back (.skp 4#4) rfl, back (.ldB 5#4) rfl,
    back (.ldVxK 5#4) rfl, back (.unknown 0x5121#16) rfl⟩

end Sys2Proof.Machine
end
